-- ==== Sys2Proof/Word.lean ====
section
/-! DEFINITION. The word types of the project-2a packet core and the constants the source fixes (R9, R11, R12). -/

namespace Sys2Proof

/-- A byte: 8 bits, always read as an unsigned number (R11). -/
abbrev Byte := BitVec 8

/-- A node address: a 32-bit unsigned number (R9, R102). -/
abbrev Addr := BitVec 32

/-- A link identifier: a natural number (R10 `LINK_ID_W`, D10). -/
abbrev LinkId := Nat

/-- A finite sequence of bytes, head first (R12). -/
abbrev Bytes := List Byte

/-- `HEADER_SIZE` (R9). -/
@[simp] abbrev headerSize : Nat := 9

/-- `ADDR_BYTES` (R9). -/
@[simp] abbrev addrBytes : Nat := 4

/-- `MAX_PAYLOAD` (R9). -/
@[simp] abbrev maxPayload : Nat := 255

/-- `MAX_PACKET` (R9). -/
@[simp] abbrev maxPacket : Nat := 264

end Sys2Proof
end

