-- ==== Sys2Proof/Config.lean ====
section
/-! DEFINITION. What the source leaves to the implementation (R10) and the one free value of the model (R107).
The parameters are plain data that State carries unchanged, so that a statement over every state is a statement over
every value of every parameter. -/

namespace Sys2Proof

/-- `ADDR_ORDER`: the order of the bytes inside an address field (R10, R203). -/
inductive AddrOrder where
  | be
  | le
  deriving DecidableEq, Repr

/-- The implementation parameters of R10. -/
structure Config where
  /-- `ADDR_ORDER` (D1). -/
  addrOrder : AddrOrder
  /-- `RX_DRAIN`: whether a link-read event repeats its extraction attempt until `None` (D2). -/
  rxDrain : Bool
  /-- `BUF_CAP`: the capacity of a receive buffer, `none` for unbounded (D3). -/
  bufCap : Option Nat
  /-- `LINK_ID_W`: the width of a link identifier, `none` for unbounded (D10). -/
  linkIdW : Option Nat
  /-- `SNAPSHOT_ORDER` (D4): the identifiers ranked before all others, in rank order; all others follow in ascending
  order. `[]` is the ascending order (log entry 15). -/
  snapshotFirst : List LinkId
  deriving DecidableEq, Repr

/-- The values R10 gives in its column "this spec". -/
def Config.spec : Config where
  addrOrder := .be
  rxDrain := false
  bufCap := none
  linkIdW := none
  snapshotFirst := []

/-- FREE VALUE (log entry 4): what the random source answers to the n-th draw for which State holds no sample. It has
no body: nothing can be proved of it (R107, D5). -/
opaque Config.freeDraw : Nat → Nat

end Sys2Proof
end

