-- ==== Sys2Proof/Syntax.lean ====
section
/-! DEFINITION. The operations of the core, one constructor per row of spec/opcode_table.json (R310, R301), and the
transfers by which its ports present them (R311, R112). -/

namespace Sys2Proof

/-- One constructor per row of the opcode table: the thirteen operations of R310 in their order, then the row
`PKT_HEADER` of format `WIRE` (R301). -/
inductive Instr where
  /-- `ENC_ADDR` (R400). -/
  | encAddr (addr : Addr)
  /-- `DEC_ADDR` (R401). -/
  | decAddr (bs : Bytes)
  /-- `ENC_HDR` (R402). -/
  | encHdr (len : Byte) (src dst : Addr)
  /-- `DEC_HDR` (R403). -/
  | decHdr (bs : Bytes)
  /-- `CREATE_PKT` (R410). -/
  | createPkt (dst : Addr) (payload : Bytes)
  /-- `DEC_PKT` (R411). -/
  | decPkt (p : Bytes)
  /-- `BUF_APPEND` (R420). -/
  | bufAppend (k : LinkId) (bs : Bytes)
  /-- `TRY_EXTRACT` (R421). -/
  | tryExtract (k : LinkId)
  /-- `ROUTE` (R430). -/
  | route (dst : Addr)
  /-- `PROCESS_PKT` (R431). -/
  | processPkt (p : Bytes)
  /-- `LINK_RX` (R450). -/
  | linkRx (k : LinkId) (bs : Bytes)
  /-- `CLIENT_SEND` (R455). -/
  | clientSend (dst : Addr) (payload : Bytes)
  /-- `LINK_RESET` (R460). -/
  | linkReset (k : LinkId)
  /-- `PKT_HEADER` (R301): the nine bytes of a wire header, arriving on link `k` (DESIGN CHOICE, log entry 13). -/
  | pktHeader (k : LinkId) (len : Byte) (src dst : Addr)
  deriving DecidableEq, Repr

/-- The operation codes of R311 by name. -/
inductive Opcode where
  | encAddr | decAddr | encHdr | decHdr | createPkt | decPkt | bufAppend | tryExtract | route | processPkt | linkRx
  | clientSend | linkReset
  deriving DecidableEq, Repr

/-- A typed operand of a `cmd` transfer (R311). A `Bytes` operand carries its own length beside its bytes. -/
inductive Operand where
  | u8 (v : Byte)
  | u32 (v : Addr)
  | link (k : LinkId)
  | bytes (len : Nat) (bs : Bytes)
  deriving DecidableEq, Repr

/-- One transfer on an input port: what the decoder reads. -/
inductive Transfer where
  /-- Port `cmd`: an operation code and the operands that follow it (R115, R311). -/
  | cmd (op : BitVec 4) (args : List Operand)
  /-- Port `link_rx`: the pair (k, bs) (R112). -/
  | linkRx (k : LinkId) (bs : Bytes)
  /-- Port `link_rx` again, its bytes given as the 72-bit wire header of R301, bit 71 first (log entry 13). -/
  | header (k : LinkId) (w : BitVec 72)
  deriving DecidableEq, Repr

/-- Why the decoder rejects a transfer. -/
inductive Reject where
  /-- `op` is 0x0, 0xE or 0xF: it selects no operation (R312). -/
  | reservedOpcode (op : BitVec 4)
  /-- The operands are not those R311 lists for the operation (log entry 11). -/
  | badOperands (op : Opcode)
  /-- A `Bytes` operand whose stated length is not the number of its bytes (R311, log entry 11). -/
  | byteCountMismatch (declared got : Nat)
  deriving DecidableEq, Repr

end Sys2Proof
end

