-- ==== Sys2Proof/WellFormed.lean ====
section
/-! DEFINITION. Well-formed operations (every link identifier fits `LINK_ID_W`, R10) and well-formed packets (R303). -/

namespace Sys2Proof

/-- `k` is a link identifier of the configured width `LINK_ID_W` (R10). -/
abbrev fitsLinkId (w : Option Nat) (k : LinkId) : Bool :=
  match w with
  | none => true
  | some n => decide (k < 2 ^ n)

/-- The link an operation acts on, if it names one (R310). -/
def Instr.link? : Instr → Option LinkId
  | .encAddr _ => none
  | .decAddr _ => none
  | .encHdr _ _ _ => none
  | .decHdr _ => none
  | .createPkt _ _ => none
  | .decPkt _ => none
  | .bufAppend k _ => some k
  | .tryExtract k => some k
  | .route _ => none
  | .processPkt _ => none
  | .linkRx k _ => some k
  | .clientSend _ _ => none
  | .linkReset k => some k
  | .pktHeader k _ _ _ => some k

/-- Operands at values their types in R310 admit: the widths of `u8` and `u32` are in the types, a `Bytes` operand has
any length, a link identifier fits `LINK_ID_W`. -/
def Instr.wf (c : Config) (i : Instr) : Bool :=
  match i.link? with
  | none => true
  | some k => fitsLinkId c.linkIdW k

/-- `WellFormed(p)` of R303: at least a header, and the length byte counts the payload. -/
abbrev PacketWellFormed (p : Bytes) : Prop :=
  headerSize ≤ p.length ∧ (p.headD 0).toNat = p.length - headerSize

end Sys2Proof
end

