-- ==== Sys2Proof/Decode.lean ====
section
/-! DEFINITION. The encodings: slices and bit fields (R12, R13), the byte order of an address (R203), the 72-bit wire
header (R301), the operation codes and operands of port `cmd` (R311), the decoder and the encoder. -/

namespace Sys2Proof

/-- `bs[i..j)` (R12). -/
def slice (bs : Bytes) (i j : Nat) : Bytes := (bs.drop i).take (j - i)

/-- The four bytes of an address, field offset 0 first (R203, R400). -/
def addrToBytes (o : AddrOrder) (a : Addr) : Bytes :=
  match o with
  | .be => [a.extractLsb' 24 8, a.extractLsb' 16 8, a.extractLsb' 8 8, a.extractLsb' 0 8]
  | .le => [a.extractLsb' 0 8, a.extractLsb' 8 8, a.extractLsb' 16 8, a.extractLsb' 24 8]

/-- The address whose field holds the bytes `b0` to `b3`, offset 0 first (R203, R401). -/
def addrOfBytes (o : AddrOrder) (b0 b1 b2 b3 : Byte) : Addr :=
  match o with
  | .be => b0 ++ b1 ++ b2 ++ b3
  | .le => b3 ++ b2 ++ b1 ++ b0

/-- The address in a 32-bit field of the wire header, whose bits 31:24 are the byte at field offset 0 (R301). -/
def addrOfField (o : AddrOrder) (f : BitVec 32) : Addr :=
  addrOfBytes o (f.extractLsb' 24 8) (f.extractLsb' 16 8) (f.extractLsb' 8 8) (f.extractLsb' 0 8)

/-- The 32-bit field of the wire header that holds an address (R301). -/
def fieldOfAddr (o : AddrOrder) (a : Addr) : BitVec 32 :=
  match o with
  | .be => a
  | .le => a.extractLsb' 0 8 ++ a.extractLsb' 8 8 ++ a.extractLsb' 16 8 ++ a.extractLsb' 24 8

/-- The wire header: length in bits 71:64, source in 63:32, destination in 31:0 (R301). -/
def headerWord (o : AddrOrder) (len : Byte) (src dst : Addr) : BitVec 72 :=
  len ++ fieldOfAddr o src ++ fieldOfAddr o dst

/-- `op[3:0]` of an operation (R311). -/
def Opcode.bits : Opcode → BitVec 4
  | .encAddr => 0x1#4
  | .decAddr => 0x2#4
  | .encHdr => 0x3#4
  | .decHdr => 0x4#4
  | .createPkt => 0x5#4
  | .decPkt => 0x6#4
  | .bufAppend => 0x7#4
  | .tryExtract => 0x8#4
  | .route => 0x9#4
  | .processPkt => 0xA#4
  | .linkRx => 0xB#4
  | .clientSend => 0xC#4
  | .linkReset => 0xD#4

/-- The operation `op[3:0]` selects; 0x0, 0xE and 0xF select none (R311, R312). -/
def Opcode.ofBits (op : BitVec 4) : Option Opcode :=
  match op.toNat with
  | 0x1 => some .encAddr
  | 0x2 => some .decAddr
  | 0x3 => some .encHdr
  | 0x4 => some .decHdr
  | 0x5 => some .createPkt
  | 0x6 => some .decPkt
  | 0x7 => some .bufAppend
  | 0x8 => some .tryExtract
  | 0x9 => some .route
  | 0xA => some .processPkt
  | 0xB => some .linkRx
  | 0xC => some .clientSend
  | 0xD => some .linkReset
  | _ => none

/-- An operation with a `Bytes` operand, if that operand's stated length is the number of its bytes (R311). -/
def withBytes (n : Nat) (bs : Bytes) (i : Instr) : Except Reject Instr :=
  if n = bs.length then .ok i else .error (.byteCountMismatch n bs.length)

/-- The operands that follow each operation code, in the order R311 lists them. -/
def decodeArgs (c : Opcode) (args : List Operand) : Except Reject Instr :=
  match c with
  | .encAddr => match args with
    | [.u32 a] => .ok (.encAddr a)
    | _ => .error (.badOperands c)
  | .decAddr => match args with
    | [.bytes n bs] => withBytes n bs (.decAddr bs)
    | _ => .error (.badOperands c)
  | .encHdr => match args with
    | [.u8 l, .u32 s, .u32 d] => .ok (.encHdr l s d)
    | _ => .error (.badOperands c)
  | .decHdr => match args with
    | [.bytes n bs] => withBytes n bs (.decHdr bs)
    | _ => .error (.badOperands c)
  | .createPkt => match args with
    | [.u32 d, .bytes n bs] => withBytes n bs (.createPkt d bs)
    | _ => .error (.badOperands c)
  | .decPkt => match args with
    | [.bytes n bs] => withBytes n bs (.decPkt bs)
    | _ => .error (.badOperands c)
  | .bufAppend => match args with
    | [.link k, .bytes n bs] => withBytes n bs (.bufAppend k bs)
    | _ => .error (.badOperands c)
  | .tryExtract => match args with
    | [.link k] => .ok (.tryExtract k)
    | _ => .error (.badOperands c)
  | .route => match args with
    | [.u32 d] => .ok (.route d)
    | _ => .error (.badOperands c)
  | .processPkt => match args with
    | [.bytes n bs] => withBytes n bs (.processPkt bs)
    | _ => .error (.badOperands c)
  | .linkRx => match args with
    | [.link k, .bytes n bs] => withBytes n bs (.linkRx k bs)
    | _ => .error (.badOperands c)
  | .clientSend => match args with
    | [.u32 d, .bytes n bs] => withBytes n bs (.clientSend d bs)
    | _ => .error (.badOperands c)
  | .linkReset => match args with
    | [.link k] => .ok (.linkReset k)
    | _ => .error (.badOperands c)

/-- The operands of the wire header: `length` zero-extended, the addresses assembled under `ADDR_ORDER` (R301, R302). -/
def decodeHeaderWord (o : AddrOrder) (k : LinkId) (w : BitVec 72) : Instr :=
  .pktHeader k (w.extractLsb' 64 8) (addrOfField o (w.extractLsb' 32 32)) (addrOfField o (w.extractLsb' 0 32))

/-- The operation a transfer invokes. Total; a transfer that invokes none is rejected by name (R311, R312, R112). -/
def decode (o : AddrOrder) : Transfer → Except Reject Instr
  | .cmd op args => match Opcode.ofBits op with
    | none => .error (.reservedOpcode op)
    | some c => decodeArgs c args
  | .linkRx k bs => .ok (.linkRx k bs)
  | .header k w => .ok (decodeHeaderWord o k w)

/-- A `Bytes` operand with its length beside it (R311). -/
def bytesOperand (bs : Bytes) : Operand := .bytes bs.length bs

/-- The transfer that invokes an operation: its code and operands in the order of R311, the wire word for
`PKT_HEADER` (R301). -/
def encode (o : AddrOrder) : Instr → Transfer
  | .encAddr a => .cmd Opcode.encAddr.bits [.u32 a]
  | .decAddr bs => .cmd Opcode.decAddr.bits [bytesOperand bs]
  | .encHdr l s d => .cmd Opcode.encHdr.bits [.u8 l, .u32 s, .u32 d]
  | .decHdr bs => .cmd Opcode.decHdr.bits [bytesOperand bs]
  | .createPkt d bs => .cmd Opcode.createPkt.bits [.u32 d, bytesOperand bs]
  | .decPkt p => .cmd Opcode.decPkt.bits [bytesOperand p]
  | .bufAppend k bs => .cmd Opcode.bufAppend.bits [.link k, bytesOperand bs]
  | .tryExtract k => .cmd Opcode.tryExtract.bits [.link k]
  | .route d => .cmd Opcode.route.bits [.u32 d]
  | .processPkt p => .cmd Opcode.processPkt.bits [bytesOperand p]
  | .linkRx k bs => .cmd Opcode.linkRx.bits [.link k, bytesOperand bs]
  | .clientSend d bs => .cmd Opcode.clientSend.bits [.u32 d, bytesOperand bs]
  | .linkReset k => .cmd Opcode.linkReset.bits [.link k]
  | .pktHeader k l s d => .header k (headerWord o l s d)

/-- Operands of zeros for an operation code: the number 0, link 0, the byte sequence of length 0. -/
def zeroOperands (op : BitVec 4) : List Operand :=
  match Opcode.ofBits op with
  | none => []
  | some .encAddr => [.u32 0]
  | some .decAddr => [.bytes 0 []]
  | some .encHdr => [.u8 0, .u32 0, .u32 0]
  | some .decHdr => [.bytes 0 []]
  | some .createPkt => [.u32 0, .bytes 0 []]
  | some .decPkt => [.bytes 0 []]
  | some .bufAppend => [.link 0, .bytes 0 []]
  | some .tryExtract => [.link 0]
  | some .route => [.u32 0]
  | some .processPkt => [.bytes 0 []]
  | some .linkRx => [.link 0, .bytes 0 []]
  | some .clientSend => [.u32 0, .bytes 0 []]
  | some .linkReset => [.link 0]

/-- The transfer whose table bits are `w`: the 72-bit row is the wire header, on link 0; any other row is `op[3:0]` in
bits 3:0 followed by operands of zeros (log entry 16). -/
def tableTransfer (nbits w : Nat) : Transfer :=
  if nbits = 72 then .header 0 (BitVec.ofNat 72 w)
  else .cmd (BitVec.ofNat 4 w) (zeroOperands (BitVec.ofNat 4 w))

/-- The operation the decoder reads from an opcode-table row's bits, under the spec's `ADDR_ORDER`. -/
def decodeTableWord (nbits w : Nat) : Option Instr :=
  match decode Config.spec.addrOrder (tableTransfer nbits w) with
  | .ok i => some i
  | .error _ => none

end Sys2Proof
end

