-- ==== Sys2Proof/Machine/State.lean ====
section
/-! DEFINITION. The state of one node: the receive buffers, the core's inputs and configuration, and the model's own
records of what crosses the ports; the reasons a step can stop; the state after reset (R100 to R120, R700). -/

namespace Sys2Proof.Machine

/-- The header fields a decode returns (R403). -/
structure Header where
  len : Byte
  src : Addr
  dst : Addr
  deriving DecidableEq, Repr

/-- The three errors of the core with the value each records (R602, R603, R604). An error is no fault of the machine:
the operation that raises it still has a next state (R606). -/
inductive CoreError where
  /-- More than 255 payload bytes; records their number (R602). -/
  | payloadTooLarge (length : Nat)
  /-- Fewer bytes than the field decoded; records the bytes needed and supplied (R603). -/
  | malformedHeader (needed got : Nat)
  /-- The `LINK_SET` snapshot is empty; records nothing (R604). -/
  | noLinksAvailable
  deriving DecidableEq, Repr

/-- The outcome of one `PROCESS_PKT`: the two results of R431, or the error that dropped the packet. -/
inductive PktOutcome where
  | delivered
  | forwarded (k : LinkId)
  | dropped (e : CoreError)
  deriving DecidableEq, Repr

/-- The results an operation returns with status `OK` (R310). -/
inductive Result where
  /-- A byte sequence: `ENC_ADDR`, `ENC_HDR`, `CREATE_PKT`. -/
  | bytes (bs : Bytes)
  /-- An address: `DEC_ADDR`. -/
  | addr (a : Addr)
  /-- Header fields: `DEC_HDR`. -/
  | header (h : Header)
  /-- Header fields and payload: `DEC_PKT`. -/
  | packet (h : Header) (payload : Bytes)
  /-- No result: `BUF_APPEND`, `LINK_RESET`. -/
  | done
  /-- `Some(p)` or `None`: `TRY_EXTRACT`; `None` is no error (R601). -/
  | extracted (p : Option Bytes)
  /-- A link identifier: `ROUTE`. -/
  | link (k : LinkId)
  /-- `Delivered`: `PROCESS_PKT`. -/
  | delivered
  /-- `Forwarded(k)`: `PROCESS_PKT`. -/
  | forwarded (k : LinkId)
  /-- The outcomes of the `PROCESS_PKT` calls of a `LINK_RX` on link `k`, in order. -/
  | outcomes (k : LinkId) (os : List PktOutcome)
  /-- `Sent(k)`: `CLIENT_SEND`. -/
  | sent (k : LinkId)
  deriving DecidableEq, Repr

/-- What an operation returns to its invoker: one status with its result or recorded value (R600). -/
inductive Response where
  | ok (r : Result)
  | error (e : CoreError)
  /-- A reserved operation code was presented (R312). -/
  | badCommand
  deriving DecidableEq, Repr

/-- An output action (R440, R441). -/
inductive Output where
  /-- `LinkSend(k, bs)`, on port `link_tx` (R113, R440). -/
  | linkSend (k : LinkId) (bs : Bytes)
  /-- `ClientReceive(bs)`, on port `client_rx` (R114, R441). -/
  | clientReceive (bs : Bytes)
  deriving DecidableEq, Repr

/-- An input event of a run (R23). -/
inductive Event where
  /-- A transfer on port `cmd` or `link_rx`; the operation it invokes is served without interruption. -/
  | transfer (t : Transfer)
  /-- A link-read event on link `k` of which this is the first primitive step, its `BUF_APPEND`; the others are served
  one by one, so that other events may fall between them (R450, D15; log entry 8). -/
  | rxBegin (k : LinkId) (bs : Bytes)
  /-- The next primitive step of the link-read event in progress on link `k`. -/
  | rxAdvance (k : LinkId)
  /-- The environment replaces `LINK_SET` (R103, R224). -/
  | setLinkSet (ks : List LinkId)
  /-- The random source makes one more sample ready on port `rand` (R116). -/
  | randSample (r : Nat)
  /-- `RESET` (R700). -/
  | reset
  deriving DecidableEq, Repr

/-- A link-read event between two of its primitive steps (R450). -/
structure RxFlow where
  link : LinkId
  /-- A packet extracted and not yet given to `PROCESS_PKT`; with `none` an extraction attempt comes next. -/
  pending : Option Bytes
  /-- The outcomes so far, in order. -/
  outcomes : List PktOutcome
  deriving DecidableEq, Repr

/-- The receive buffers: pairs of a link and its bytes, links strictly rising, no pair with an empty sequence. A link
with no pair reads as `[]` (R104, R105; log entry 5). -/
abbrev Memory := List (LinkId × Bytes)

/-- One node. `buf` is all the state the spec gives the core (R17, R104); `localAddr`, `linkSet` and `rand` are its
inputs (R102, R103, R116), `cfg` its parameters (R10); the other fields are the model's own (log entries 4, 6, 7, 8). -/
structure State where
  /-- The implementation parameters (R10); no step changes them. -/
  cfg : Config
  /-- `LOCAL_ADDR` (R102); no step changes it. -/
  localAddr : Addr
  /-- `LINK_SET` (R103), strictly rising. -/
  linkSet : List LinkId
  /-- `buf`: the receive buffers (R104). -/
  buf : Memory
  /-- The samples ready on port `rand`, oldest first (R116). -/
  rand : List Nat
  /-- How many draws were answered by `Config.freeDraw`. -/
  randCount : Nat
  /-- The input events placed by the environment, in their order of service (R23). -/
  inputs : List Event
  /-- The link-read events in progress, oldest first (R450). -/
  flows : List RxFlow
  /-- The output actions emitted so far, oldest first (R113, R114). -/
  outputs : List Output
  /-- The responses returned so far, oldest first (R115). -/
  responses : List Response
  deriving DecidableEq, Repr

/-- Why an operation cannot take place at all. -/
inductive Fault where
  /-- Raised by `BUF_APPEND`, `LINK_RX` and `PKT_HEADER` taken alone, with a finite `BUF_CAP` and no room on link `k`:
  the append is not enabled (R420, U10). `step` never serves such an append: it waits. Safe: no byte is lost. -/
  | appendNotEnabled (k : LinkId)
  deriving DecidableEq, Repr

/-- Why an input has no meaning. -/
inductive Refusal where
  /-- An operation with no meaning yet, by its mnemonic. No arm of `exec` raises it. Safe. -/
  | notModelled (mnemonic : String)
  /-- Raised by `step` on a `cmd` transfer whose operands are not those of R311: no such transfer can be presented
  (log entry 11). Safe. -/
  | badOperands (op : Opcode)
  /-- Raised by `step` on a `Bytes` operand whose stated length is not the number of its bytes (R311, log entry 11).
  Safe. -/
  | byteCountMismatch (declared got : Nat)
  /-- Raised by `step` on a link identifier that does not fit a bounded `LINK_ID_W` (R10, log entry 14). Safe. -/
  | linkIdTooWide (k : LinkId)
  deriving DecidableEq, Repr

/-- The node right after reset: every buffer empty, nothing in progress (R120, R700). The parameters have the spec's
values (R10); `localAddr`, `linkSet` and `rand` are inputs to which the spec gives no value (log entries 2, 3, 4). -/
def State.reset : State where
  cfg := Config.spec
  localAddr := 0
  linkSet := []
  buf := []
  rand := []
  randCount := 0
  inputs := []
  flows := []
  outputs := []
  responses := []

end Sys2Proof.Machine
end

