-- ==== Sys2Proof/Machine/Operands.lean ====
section
/-! DEFINITION. The Header Codec and Packet Framer as functions of bytes (R400 to R411): how the fields of a header are
assembled from a byte sequence and laid out in one (R300, R302). They read no buffer and emit nothing. -/

namespace Sys2Proof.Machine

/-- `encodeAddress` (R400). -/
def encodeAddress (o : AddrOrder) (a : Addr) : Bytes := addrToBytes o a

/-- `decodeAddress` (R401): the first four bytes; any further bytes are ignored (D6). -/
def decodeAddress (o : AddrOrder) (bs : Bytes) : Except CoreError Addr :=
  match bs with
  | b0 :: b1 :: b2 :: b3 :: _ => .ok (addrOfBytes o b0 b1 b2 b3)
  | _ => .error (.malformedHeader addrBytes bs.length)

/-- `encodeHeader` (R402). -/
def encodeHeader (o : AddrOrder) (len : Byte) (src dst : Addr) : Bytes :=
  len :: (encodeAddress o src ++ encodeAddress o dst)

/-- `decodeHeader` (R403): one length test on the whole header, then the three fields; further bytes are ignored and the
length byte is compared with nothing (R306). -/
def decodeHeader (o : AddrOrder) (bs : Bytes) : Except CoreError Header :=
  if bs.length < headerSize then .error (.malformedHeader headerSize bs.length)
  else
    match decodeAddress o (slice bs 1 5), decodeAddress o (slice bs 5 9) with
    | .ok src, .ok dst => .ok ⟨bs.headD 0, src, dst⟩
    | .error e, _ => .error e
    | _, .error e => .error e

/-- `createPacket` at a node whose address is `src` (R410): the length is tested before it is narrowed to a byte. -/
def createPacket (o : AddrOrder) (src dst : Addr) (payload : Bytes) : Except CoreError Bytes :=
  if maxPayload < payload.length then .error (.payloadTooLarge payload.length)
  else .ok (encodeHeader o (BitVec.ofNat 8 payload.length) src dst ++ payload)

/-- `decode` of a packet (R411): the header fields and every byte after the header (D7). -/
def decodePacket (o : AddrOrder) (p : Bytes) : Except CoreError (Header × Bytes) :=
  match decodeHeader o p with
  | .error e => .error e
  | .ok h => .ok (h, slice p headerSize p.length)

end Sys2Proof.Machine
end

