-- ==== Sys2Proof/Machine/Ops.lean ====
section
/-! DEFINITION. The named operations over the node's state: the buffer primitives (R13, R201), the ports (R113 to R116),
ending an operation with its result or by raising an error (R600, R606), and the shared operations of the Stream
Reassembler, the Forwarding Engine and the node events (R421, R430, R431, R450, R455). -/

namespace Sys2Proof.Machine

/-! ### The receive buffers -/

/-- The bytes of link `k`; `[]` where nothing is listed (R105). -/
def memGet (m : Memory) (k : LinkId) : Bytes :=
  match m with
  | [] => []
  | (j, c) :: rest => if j = k then c else memGet rest k

/-- Place a pair in front of the first pair of a higher link. -/
def memInsert (m : Memory) (k : LinkId) (b : Bytes) : Memory :=
  match m with
  | [] => [(k, b)]
  | (j, c) :: rest => if k < j then (k, b) :: (j, c) :: rest else (j, c) :: memInsert rest k b

/-- Link `k` now holds `b`; an empty buffer has no pair. -/
def memSet (m : Memory) (k : LinkId) (b : Bytes) : Memory :=
  if b = [] then m.filter (fun c => c.1 != k) else memInsert (m.filter (fun c => c.1 != k)) k b

/-- The canonical form of the buffers: links strictly rising, no empty sequence listed. -/
abbrev Memory.wf (m : Memory) : Prop :=
  m.Pairwise (fun a b => a.1 < b.1) ∧ ∀ c ∈ m, c.2 ≠ []

/-- The byte at location (k, i), if `i < BufLen(k)` (R200). -/
def byteAt (m : Memory) (k : LinkId) (i : Nat) : Option Byte := (memGet m k)[i]?

/-- `buf[k]` (R104). -/
def State.bufOf (s : State) (k : LinkId) : Bytes := memGet s.buf k

/-- `BufLen(k)` (R13). -/
def State.bufLen (s : State) (k : LinkId) : Nat := (s.bufOf k).length

/-- `BufPeek(k, i, n)`: no side effect (R13, R208). -/
def State.bufPeek (s : State) (k : LinkId) (i n : Nat) : Bytes := slice (s.bufOf k) i (i + n)

/-- `buf[k] <- b`: the only writer of the buffers, called by the three transitions of R201. -/
def State.setBuf (s : State) (k : LinkId) (b : Bytes) : State := { s with buf := memSet s.buf k b }

/-- `BufAppend(k, bs)` (R13, R420). -/
def State.bufAppend (s : State) (k : LinkId) (bs : Bytes) : State := s.setBuf k (s.bufOf k ++ bs)

/-- `BufRemoveHead(k, n)` (R13). -/
def State.bufRemoveHead (s : State) (k : LinkId) (n : Nat) : State := s.setBuf k ((s.bufOf k).drop n)

/-- `buf[k] <- []` (R460). -/
def State.bufClear (s : State) (k : LinkId) : State := s.setBuf k []

/-- Whether an append of `n` bytes to `buf[k]` is enabled: always, unless `BUF_CAP` is finite and would be exceeded
(R420). -/
def State.hasRoom (s : State) (k : LinkId) (n : Nat) : Bool :=
  match s.cfg.bufCap with
  | none => true
  | some c => decide (s.bufLen k + n ≤ c)

/-- `RESET`: every buffer empty, nothing else (R700, R701). -/
def State.coreReset (s : State) : State := { s with buf := [] }

/-! ### The ports -/

/-- Emit an output action (R440, R441). -/
def State.emit (s : State) (o : Output) : State := { s with outputs := s.outputs ++ [o] }

/-- Return a response to the invoker of an operation (R600, R115). -/
def State.respond (s : State) (r : Response) : State := { s with responses := s.responses ++ [r] }

/-- End an operation with status `OK` and a result (R13 `return`). -/
def State.complete (s : State) (r : Result) : State := s.respond (.ok r)

/-- RAISING AN ERROR, the one shared operation for it: the status and its recorded value go to the invoker; no state
changes, nothing is emitted, saved, masked or switched, and control goes nowhere (R606). There is nothing to return
from: the next operation runs as if this one had not been invoked (R607). -/
def State.raise (s : State) (e : CoreError) : State := s.respond (.error e)

/-- End an operation whose result or error is given. -/
def State.finish (s : State) (r : Except CoreError Result) : State :=
  match r with
  | .ok v => s.complete v
  | .error e => s.raise e

/-- Place a link identifier in a strictly rising list, once. -/
def insertLink (k : LinkId) : List LinkId → List LinkId
  | [] => [k]
  | j :: ks => if k < j then k :: j :: ks else if k = j then j :: ks else j :: insertLink k ks

/-- The finite set of the identifiers of a list, strictly rising (R103). -/
def canonLinks (ks : List LinkId) : List LinkId := ks.foldr insertLink []

/-- The environment replaces `LINK_SET` (R224). -/
def State.setLinkSet (s : State) (ks : List LinkId) : State := { s with linkSet := canonLinks ks }

/-- A link set as a sequence in `SNAPSHOT_ORDER` (R430, D4). -/
def snapshotOf (first : List LinkId) (links : List LinkId) : List LinkId :=
  first.dedup.filter (fun k => decide (k ∈ links)) ++ links.filter (fun k => decide (k ∉ first))

/-- The snapshot of `LINK_SET` that `ROUTE` takes (R224, R430). -/
def State.snapshot (s : State) : List LinkId := snapshotOf s.cfg.snapshotFirst s.linkSet

/-- A draw `r` in `[0, n)`: the oldest sample of port `rand`, or the free value where none is ready, each brought into
the range by its remainder (R107, R116; log entry 4). -/
def State.draw (s : State) (n : Nat) : Nat × State :=
  match s.rand with
  | r :: rs => (r % n, { s with rand := rs })
  | [] => (Config.freeDraw s.randCount % n, { s with randCount := s.randCount + 1 })

/-! ### The shared operations of the components -/

/-- `tryExtractPacket(k)` (R421). `9 + L` is a sum of natural numbers and cannot wrap (R211). -/
def State.tryExtract (s : State) (k : LinkId) : Option Bytes × State :=
  if s.bufLen k < headerSize then (none, s)
  else
    let l := ((s.bufPeek k 0 1).headD 0).toNat
    if s.bufLen k < headerSize + l then (none, s)
    else (some (s.bufPeek k 0 (headerSize + l)), s.bufRemoveHead k (headerSize + l))

/-- `route(destination)` (R430). The destination is no argument here: it has no influence. No draw is made when the
snapshot is empty. -/
def State.route (s : State) : Except CoreError LinkId × State :=
  match s.snapshot with
  | [] => (.error .noLinksAvailable, s)
  | k0 :: ks => (.ok ((k0 :: ks).getD (s.draw (k0 :: ks).length).1 k0), (s.draw (k0 :: ks).length).2)

/-- Hand `bs` to a link chosen by `route`, in the same atomic step (R440). -/
def State.sendRouted (s : State) (bs : Bytes) : Except CoreError LinkId × State :=
  match s.route with
  | (.error e, s') => (.error e, s')
  | (.ok k, s') => (.ok k, s'.emit (.linkSend k bs))

/-- `processPacket(p)` (R431): the length check, then the destination, then `route` (R610). -/
def State.processPacket (s : State) (p : Bytes) : PktOutcome × State :=
  if p.length < headerSize then (.dropped (.malformedHeader headerSize p.length), s)
  else
    match decodeAddress s.cfg.addrOrder (slice p 5 9) with
    | .error e => (.dropped e, s)
    | .ok dst =>
      if dst = s.localAddr then (.delivered, s.emit (.clientReceive (slice p headerSize p.length)))
      else
        match s.sendRouted p with
        | (.error e, s') => (.dropped e, s')
        | (.ok k, s') => (.forwarded k, s')

/-- The loop of `linkRead` after its append (R450): an attempt, the packet processed at once, and again only with
`RX_DRAIN`. Each turn removes at least nine bytes, so a fuel above `BufLen(k)` is never used up. -/
def State.rxLoop (s : State) (k : LinkId) (fuel : Nat) : List PktOutcome × State :=
  match fuel with
  | 0 => ([], s)
  | n + 1 =>
    match (s.tryExtract k).1 with
    | none => ([], s)
    | some p =>
      let o := ((s.tryExtract k).2.processPacket p).1
      let s' := ((s.tryExtract k).2.processPacket p).2
      if s.cfg.rxDrain then (o :: (s'.rxLoop k n).1, (s'.rxLoop k n).2) else ([o], s')

/-- `linkRead(k, bs)` served without interruption (R450). -/
def State.linkRead (s : State) (k : LinkId) (bs : Bytes) : List PktOutcome × State :=
  (s.bufAppend k bs).rxLoop k ((s.bufAppend k bs).bufLen k + 1)

/-- The whole of a link-read event with its result, where its append is enabled (R450, R420). The event itself has no
error: those of its packets stand in the list of outcomes. -/
def State.receive (s : State) (k : LinkId) (bs : Bytes) : Host.Outcome State Fault Refusal :=
  if s.hasRoom k bs.length then
    .next ((s.linkRead k bs).2.complete (.outcomes k (s.linkRead k bs).1))
  else .fault (.appendNotEnabled k)

/-- `sendData(destinationAddr, payloadBytes)` (R455): framing first, then routing (R610). -/
def State.sendData (s : State) (dst : Addr) (payload : Bytes) : Except CoreError LinkId × State :=
  match createPacket s.cfg.addrOrder s.localAddr dst payload with
  | .error e => (.error e, s)
  | .ok p => s.sendRouted p

/-! ### A link-read event taken one primitive step at a time -/

/-- The link-read event in progress on link `k`, if any. -/
def State.flowOf (s : State) (k : LinkId) : Option RxFlow := s.flows.find? (fun f => f.link == k)

/-- Put the event in progress on a link in its new position. -/
def State.updateFlow (s : State) (f : RxFlow) : State :=
  { s with flows := s.flows.map (fun g => if g.link = f.link then f else g) }

/-- The event in progress on link `k` ends: its outcomes are returned (R450). -/
def State.endFlow (s : State) (k : LinkId) (os : List PktOutcome) : State :=
  ({ s with flows := s.flows.filter (fun g => g.link != k) }).complete (.outcomes k os)

/-- Step 1 of `linkRead`, and the event's place kept for the next (R450). -/
def State.rxBegin (s : State) (k : LinkId) (bs : Bytes) : State :=
  let s' := s.bufAppend k bs
  { s' with flows := s'.flows ++ [⟨k, none, []⟩] }

/-- The next primitive step of an event in progress: an extraction attempt, or the processing of the packet it gave
(R450, steps 2 and 3). -/
def State.rxAdvanceFlow (s : State) (f : RxFlow) : State :=
  match f.pending with
  | none =>
    match s.tryExtract f.link with
    | (none, s') => s'.endFlow f.link f.outcomes
    | (some p, s') => s'.updateFlow { f with pending := some p }
  | some p =>
    let o := (s.processPacket p).1
    let s' := (s.processPacket p).2
    if s.cfg.rxDrain then s'.updateFlow ⟨f.link, none, f.outcomes ++ [o]⟩
    else s'.endFlow f.link (f.outcomes ++ [o])

/-- The next primitive step of the event in progress on link `k`; nothing where none is in progress. -/
def State.rxAdvance (s : State) (k : LinkId) : State :=
  match s.flowOf k with
  | none => s
  | some f => s.rxAdvanceFlow f

end Sys2Proof.Machine
end

