-- ==== Sys2Proof/Machine/ForwardingEngine.lean ====
section
/-! DEFINITION. The Forwarding Engine: `ROUTE`, `PROCESS_PKT` (R430, R431). -/

namespace Sys2Proof.Machine

/-- `ROUTE` (R430): the destination is ignored. -/
def execRoute (_dst : Addr) (s : State) : Host.Outcome State Fault Refusal :=
  .next (s.route.2.finish (s.route.1.map .link))

/-- The response of a `PROCESS_PKT` with the given outcome (R431, R600). -/
def processResult (o : PktOutcome) : Except CoreError Result :=
  match o with
  | .delivered => .ok .delivered
  | .forwarded k => .ok (.forwarded k)
  | .dropped e => .error e

/-- `PROCESS_PKT` (R431). -/
def execProcessPkt (p : Bytes) (s : State) : Host.Outcome State Fault Refusal :=
  .next ((s.processPacket p).2.finish (processResult (s.processPacket p).1))

end Sys2Proof.Machine
end

