-- ==== Sys2Proof/Machine/HeaderCodec.lean ====
section
/-! DEFINITION. The Header Codec: `ENC_ADDR`, `DEC_ADDR`, `ENC_HDR`, `DEC_HDR` (R400 to R403). They read only
`ADDR_ORDER`, change no state but the response, and emit nothing. -/

namespace Sys2Proof.Machine

/-- `ENC_ADDR` (R400). -/
def execEncAddr (addr : Addr) (s : State) : Host.Outcome State Fault Refusal :=
  .next (s.complete (.bytes (encodeAddress s.cfg.addrOrder addr)))

/-- `DEC_ADDR` (R401). -/
def execDecAddr (bs : Bytes) (s : State) : Host.Outcome State Fault Refusal :=
  .next (s.finish ((decodeAddress s.cfg.addrOrder bs).map .addr))

/-- `ENC_HDR` (R402). -/
def execEncHdr (len : Byte) (src dst : Addr) (s : State) : Host.Outcome State Fault Refusal :=
  .next (s.complete (.bytes (encodeHeader s.cfg.addrOrder len src dst)))

/-- `DEC_HDR` (R403). -/
def execDecHdr (bs : Bytes) (s : State) : Host.Outcome State Fault Refusal :=
  .next (s.finish ((decodeHeader s.cfg.addrOrder bs).map .header))

end Sys2Proof.Machine
end

