-- ==== Sys2Proof/Machine/NodeEvents.lean ====
section
/-! DEFINITION. The node events: `LINK_RX`, `CLIENT_SEND`, `LINK_RESET` (R450, R455, R460), and the wire row
`PKT_HEADER` (R301). -/

namespace Sys2Proof.Machine

/-- `LINK_RX` (R450), served without interruption (log entry 8). -/
def execLinkRx (k : LinkId) (bs : Bytes) (s : State) : Host.Outcome State Fault Refusal :=
  s.receive k bs

/-- `CLIENT_SEND` (R455). A destination equal to `LOCAL_ADDR` is sent like any other (D9, U6; log entry 17). -/
def execClientSend (dst : Addr) (payload : Bytes) (s : State) : Host.Outcome State Fault Refusal :=
  .next ((s.sendData dst payload).2.finish ((s.sendData dst payload).1.map .sent))

/-- `LINK_RESET` (R460). -/
def execLinkReset (k : LinkId) (s : State) : Host.Outcome State Fault Refusal :=
  .next ((s.bufClear k).complete .done)

/-- `PKT_HEADER`: the nine bytes of a wire header (R301) arrive on link `k`, a link-read event like any other (R112).
DESIGN CHOICE, log entry 13: the row is no operation of its own. -/
def execPktHeader (k : LinkId) (len : Byte) (src dst : Addr) (s : State) : Host.Outcome State Fault Refusal :=
  s.receive k (encodeHeader s.cfg.addrOrder len src dst)

end Sys2Proof.Machine
end

