-- ==== Sys2Proof/Machine/PacketFramer.lean ====
section
/-! DEFINITION. The Packet Framer: `CREATE_PKT`, `DEC_PKT` (R410, R411). -/

namespace Sys2Proof.Machine

/-- `CREATE_PKT` (R410): the source is always the node's own address. -/
def execCreatePkt (dst : Addr) (payload : Bytes) (s : State) : Host.Outcome State Fault Refusal :=
  .next (s.finish ((createPacket s.cfg.addrOrder s.localAddr dst payload).map .bytes))

/-- `DEC_PKT` (R411). -/
def execDecPkt (p : Bytes) (s : State) : Host.Outcome State Fault Refusal :=
  .next (s.finish ((decodePacket s.cfg.addrOrder p).map fun d => .packet d.1 d.2))

end Sys2Proof.Machine
end

