-- ==== Sys2Proof/Machine/StreamReassembler.lean ====
section
/-! DEFINITION. The Stream Reassembler: `BUF_APPEND`, `TRY_EXTRACT` (R420, R421). -/

namespace Sys2Proof.Machine

/-- `BUF_APPEND` (R420): not enabled where a finite `BUF_CAP` leaves no room. -/
def execBufAppend (k : LinkId) (bs : Bytes) (s : State) : Host.Outcome State Fault Refusal :=
  if s.hasRoom k bs.length then .next ((s.bufAppend k bs).complete .done) else .fault (.appendNotEnabled k)

/-- `TRY_EXTRACT` (R421). -/
def execTryExtract (k : LinkId) (s : State) : Host.Outcome State Fault Refusal :=
  .next ((s.tryExtract k).2.complete (.extracted (s.tryExtract k).1))

end Sys2Proof.Machine
end

