-- ==== Sys2Proof/Machine/Dispatch.lean ====
section
/-! DEFINITION. One arm per operation (R310), each one call of its meaning. -/

namespace Sys2Proof.Machine

def exec (i : Instr) (s : State) : Host.Outcome State Fault Refusal :=
  match i with
  | .encAddr addr => Sys2Proof.Machine.execEncAddr addr s
  | .decAddr bs => Sys2Proof.Machine.execDecAddr bs s
  | .encHdr len src dst => Sys2Proof.Machine.execEncHdr len src dst s
  | .decHdr bs => Sys2Proof.Machine.execDecHdr bs s
  | .createPkt dst payload => Sys2Proof.Machine.execCreatePkt dst payload s
  | .decPkt p => Sys2Proof.Machine.execDecPkt p s
  | .bufAppend k bs => Sys2Proof.Machine.execBufAppend k bs s
  | .tryExtract k => Sys2Proof.Machine.execTryExtract k s
  | .route dst => Sys2Proof.Machine.execRoute dst s
  | .processPkt p => Sys2Proof.Machine.execProcessPkt p s
  | .linkRx k bs => Sys2Proof.Machine.execLinkRx k bs s
  | .clientSend dst payload => Sys2Proof.Machine.execClientSend dst payload s
  | .linkReset k => Sys2Proof.Machine.execLinkReset k s
  | .pktHeader k len src dst => Sys2Proof.Machine.execPktHeader k len src dst s

end Sys2Proof.Machine
end

