-- ==== Sys2Proof/Machine/Events.lean ====
section
/-! DEFINITION. How input events are served (R23, R220 to R224, R611): which event is enabled, what serving one does,
and what one step of the node is. -/

namespace Sys2Proof.Machine

/-- The bytes an operation appends to a receive buffer, with their link (R420, R450). -/
def appendOf (i : Instr) : Option (LinkId × Nat) :=
  match i with
  | .encAddr _ => none
  | .decAddr _ => none
  | .encHdr _ _ _ => none
  | .decHdr _ => none
  | .createPkt _ _ => none
  | .decPkt _ => none
  | .bufAppend k bs => some (k, bs.length)
  | .tryExtract _ => none
  | .route _ => none
  | .processPkt _ => none
  | .linkRx k bs => some (k, bs.length)
  | .clientSend _ _ => none
  | .linkReset _ => none
  | .pktHeader k _ _ _ => some (k, headerSize)

/-- No link-read event is in progress on link `k` (R221). -/
def State.linkFree (s : State) (k : LinkId) : Bool := (s.flowOf k).isNone

/-- An append of `n` bytes on link `k` is enabled: there is room (R420), and no earlier append on `k` waits (R221). -/
def State.appendReady (s : State) (waiting : List LinkId) (k : LinkId) (n : Nat) : Bool :=
  s.hasRoom k n && decide (k ∉ waiting)

/-- An operation is enabled: its link has no event in progress (R221), and its append, if it makes one, is enabled. -/
def State.instrReady (s : State) (waiting : List LinkId) (i : Instr) : Bool :=
  (match i.link? with
    | none => true
    | some k => s.linkFree k) &&
  (match appendOf i with
    | none => true
    | some (k, n) => s.appendReady waiting k n)

/-- An input event is enabled; `waiting` are the links on which an earlier append of the list waits. A `RESET` touches
every buffer, so it waits for every event in progress (R221). -/
def State.eventReady (s : State) (waiting : List LinkId) (e : Event) : Bool :=
  match e with
  | .transfer t =>
    match decode s.cfg.addrOrder t with
    | .error _ => true
    | .ok i => s.instrReady waiting i
  | .rxBegin k bs => s.linkFree k && s.appendReady waiting k bs.length
  | .rxAdvance _ => true
  | .setLinkSet _ => true
  | .randSample _ => true
  | .reset => s.flows.isEmpty

/-- The link an event appends to, if it does. -/
def State.eventAppends (s : State) (e : Event) : List LinkId :=
  match e with
  | .transfer t =>
    match decode s.cfg.addrOrder t with
    | .error _ => []
    | .ok i => ((appendOf i).map Prod.fst).toList
  | .rxBegin k _ => [k]
  | .rxAdvance _ => []
  | .setLinkSet _ => []
  | .randSample _ => []
  | .reset => []

/-- The first enabled event of a list, and the list without it. Appends of one link keep their order (R221); an event
that is not enabled waits and the others pass it. -/
def State.pick (s : State) (waiting : List LinkId) : List Event → Option (Event × List Event)
  | [] => none
  | e :: es =>
    if s.eventReady waiting e then some (e, es)
    else
      match s.pick (s.eventAppends e ++ waiting) es with
      | none => none
      | some (e', es') => some (e', e :: es')

/-- Run a decoded operation if its link identifier fits `LINK_ID_W` (R10). -/
def runInstr (i : Instr) (s : State) : Host.Outcome State Fault Refusal :=
  if i.wf s.cfg then exec i s
  else .refused (.linkIdTooWide (i.link?.getD 0))

/-- What a transfer does: the operation it invokes, or the status `BadCommand` for a reserved code (R312). -/
def runTransfer (t : Transfer) (s : State) : Host.Outcome State Fault Refusal :=
  match decode s.cfg.addrOrder t with
  | .ok i => runInstr i s
  | .error (.reservedOpcode _) => .next (s.respond .badCommand)
  | .error (.badOperands c) => .refused (.badOperands c)
  | .error (.byteCountMismatch n m) => .refused (.byteCountMismatch n m)

/-- What serving one enabled event does (R23). -/
def runEvent (e : Event) (s : State) : Host.Outcome State Fault Refusal :=
  match e with
  | .transfer t => runTransfer t s
  | .rxBegin k bs =>
    if fitsLinkId s.cfg.linkIdW k then .next (s.rxBegin k bs) else .refused (.linkIdTooWide k)
  | .rxAdvance k => .next (s.rxAdvance k)
  | .setLinkSet ks =>
    match ks.find? (fun k => !fitsLinkId s.cfg.linkIdW k) with
    | some k => .refused (.linkIdTooWide k)
    | none => .next (s.setLinkSet ks)
  | .randSample r => .next { s with rand := s.rand ++ [r] }
  | .reset => .next s.coreReset

/-- One step of the node: the first enabled input event is served; where none is enabled, the oldest link-read event in
progress makes its next primitive step; where there is none, the node is idle and holds its state (R643). -/
def serveNext (s : State) : Host.Outcome State Fault Refusal :=
  match s.pick [] s.inputs with
  | some (e, rest) => runEvent e { s with inputs := rest }
  | none =>
    match s.flows with
    | [] => .next s
    | f :: _ => .next (s.rxAdvanceFlow f)

end Sys2Proof.Machine
end

