-- ==== Sys2Proof/Machine/Step.lean ====
section
/-! DEFINITION. One step of the node, and the placing of an instruction where the next step finds it. There is no fetch
at a program counter (R101): the next operation is an input event. -/

namespace Sys2Proof.Machine

/-- One step of the node (R23, R220). -/
def step (s : State) : Host.Outcome State Fault Refusal := serveNext s

/-- `s` with the transfer of an opcode-table row's bits at the head of the input events, and no link-read event in
progress that it would have to wait for (log entries 7 and 16). -/
def State.withFetchWord (s : State) (nbits w : Nat) : State :=
  { s with inputs := .transfer (tableTransfer nbits w) :: s.inputs, flows := [] }

end Sys2Proof.Machine
end

