-- ==== Sys2Proof/Machine/Flags.lean ====
section
/-! DEFINITION. The core has no flags, condition codes or sticky error bits (R108). What each operation has instead is
the one status of R600, returned with its result and kept nowhere; its numeric code is here. -/

namespace Sys2Proof.Machine

/-- The status code of an error (R600). -/
def errorCode : CoreError → Nat
  | .payloadTooLarge _ => 1
  | .malformedHeader _ _ => 2
  | .noLinksAvailable => 3

/-- The status code of a response (R600). -/
def statusCode : Response → Nat
  | .ok _ => 0
  | .error e => errorCode e
  | .badCommand => 4

end Sys2Proof.Machine
end

