-- ==== Sys2Proof/Safety.lean ====
section
/-! DEFINITION. The terms claims use: operations run one after another, the invariant of a node's state, and what the
responses and outputs of a run show (R23). -/

namespace Sys2Proof.Machine

/-- Operations run one after another, stopping at the first that does not complete. -/
def execAll (is : List Instr) (s : State) : Host.Outcome State Fault Refusal :=
  match is with
  | [] => .next s
  | i :: rest =>
    match exec i s with
    | .next s' => execAll rest s'
    | .fault r => .fault r
    | .refused r => .refused r

/-- What holds of a node in every reachable state. -/
structure NodeInvariant (s : State) : Prop where
  /-- The buffers are in their canonical form. -/
  buffers : s.buf.wf
  /-- `LINK_SET` is a set, listed in rising order (R103). -/
  links : s.linkSet.Pairwise (· < ·)
  /-- At most one link-read event is in progress on a link (R221). -/
  flows : (s.flows.map RxFlow.link).Nodup
  /-- A packet between its extraction and its processing is well-formed (R303). -/
  packets : ∀ f ∈ s.flows, ∀ p, f.pending = some p → PacketWellFormed p
  /-- No buffer exceeds a finite `BUF_CAP` (R420). -/
  capacity : ∀ c, s.cfg.bufCap = some c → ∀ k, s.bufLen k ≤ c
  /-- Whatever went out on a link has a whole header (R440, R431). -/
  sends : ∀ k bs, Output.linkSend k bs ∈ s.outputs → headerSize ≤ bs.length

/-- The state after one draw (R107, R116): the oldest sample of port `rand` is used up, or the next free value is. -/
abbrev drawn (s : State) : State :=
  { s with rand := s.rand.tail, randCount := if s.rand = [] then s.randCount + 1 else s.randCount }

/-- The destination field of a packet: its bytes 5 to 8 (R300, R302). -/
abbrev destinationOf (o : AddrOrder) (p : Bytes) : Addr :=
  addrOfBytes o (p.getD 5 0) (p.getD 6 0) (p.getD 7 0) (p.getD 8 0)

/-- The status code the table of R608 gives an operation that completes. -/
def statusTable (i : Instr) (s : State) : Nat :=
  match i with
  | .encAddr _ => 0
  | .decAddr bs => if bs.length < 4 then 2 else 0
  | .encHdr _ _ _ => 0
  | .decHdr bs => if bs.length < 9 then 2 else 0
  | .createPkt _ pl => if pl.length ≤ 255 then 0 else 1
  | .decPkt p => if p.length < 9 then 2 else 0
  | .bufAppend _ _ => 0
  | .tryExtract _ => 0
  | .route _ => if s.linkSet = [] then 3 else 0
  | .processPkt p =>
    if p.length < 9 then 2
    else if destinationOf s.cfg.addrOrder p = s.localAddr ∨ s.linkSet ≠ [] then 0 else 3
  | .linkRx _ _ => 0
  | .clientSend _ pl => if 255 < pl.length then 1 else if s.linkSet = [] then 3 else 0
  | .linkReset _ => 0
  | .pktHeader _ _ _ _ => 0

/-- The packets that `TRY_EXTRACT` operations returned, in order. -/
def extractedPackets (rs : List Response) : List Bytes :=
  rs.filterMap fun r =>
    match r with
    | .ok (.extracted (some p)) => some p
    | _ => none

/-- An operation of the Stream Reassembler on link `k` (R420, R421). -/
def reassemblerOp (k : LinkId) (i : Instr) : Bool :=
  match i with
  | .bufAppend j _ => j == k
  | .tryExtract j => j == k
  | _ => false

/-- The bytes a list of operations appends to a buffer with `BUF_APPEND`, in order. -/
def appendedBytes (is : List Instr) : Bytes :=
  is.flatMap fun i =>
    match i with
    | .bufAppend _ bs => bs
    | _ => []

/-- The outcomes that link-read events on link `k` returned, in order (R450). -/
def receivedOutcomes (k : LinkId) (rs : List Response) : List PktOutcome :=
  rs.flatMap fun r =>
    match r with
    | .ok (.outcomes j os) => if j = k then os else []
    | _ => []

/-- The link whose buffer an event may write, if it names one. `RESET` names none and writes them all (R700). -/
def eventLink (o : AddrOrder) (e : Event) : Option LinkId :=
  match e with
  | .transfer t =>
    match decode o t with
    | .ok i => i.link?
    | .error _ => none
  | .rxBegin k _ => some k
  | .rxAdvance k => some k
  | .setLinkSet _ => none
  | .randSample _ => none
  | .reset => none

/-- The link whose buffer the next step may write: that of the event it serves, or of the oldest link-read event in
progress where it serves none (log entry 8). -/
def servedLink (s : State) : Option LinkId :=
  match s.pick [] s.inputs with
  | some (e, _) => eventLink s.cfg.addrOrder e
  | none => s.flows.head?.map RxFlow.link

/-- The link-read event in progress that the next step moves on, if it moves one on (log entry 8). -/
def servedFlow (s : State) : Option RxFlow :=
  match s.pick [] s.inputs with
  | some (.rxAdvance k, _) => s.flowOf k
  | some _ => none
  | none => s.flows.head?

end Sys2Proof.Machine
end

