-- ==== Sys2Proof/Certificates/Slice0/Obligations.lean ====
section
/-! DEFINITION. The statements for the provers. A record `{ s with … }` on the right of a `next` says the frame: every
field it does not name is as in `s`. Buffers are compared through `memGet`, the whole byte sequence of a link. -/

open Sys2Proof Sys2Proof.Machine

/-! ### Encodings -/

/-- The decoder reads back every operation the encoder writes, under either `ADDR_ORDER` (R311, R301). The codes are
decision D12, and that the wire row is an operation is the model's choice, log entry 13. -/
def Obligations.DecodeOfEncode : Prop :=
  ∀ (o : AddrOrder) (i : Instr), decode o (encode o i) = .ok i

/-- Every `cmd` transfer and wire header the decoder accepts is the one the encoder writes: no bit or operand is dropped.
(A transfer on port `link_rx` is left out: R311 gives it the meaning of the `cmd` transfer 0xB, which is what is
written.) The codes are decision D12, and that the wire row is an operation is the model's choice, log entry 13. -/
def Obligations.EncodeOfDecode : Prop :=
  ∀ (o : AddrOrder) (t : Transfer) (i : Instr),
    decode o t = .ok i → (∀ k bs, t ≠ .linkRx k bs) → encode o i = t

/-- The command words of R311, every operand free; the reserved codes; `link_rx` as the `cmd` transfer 0xB. The codes
are the spec's own decision D12. -/
def Obligations.CommandWordsDecode : Prop :=
  ∀ (o : AddrOrder) (a b : Addr) (l : Byte) (k : LinkId) (bs : Bytes),
    decode o (.cmd 0x1#4 [.u32 a]) = .ok (.encAddr a) ∧
    decode o (.cmd 0x2#4 [.bytes bs.length bs]) = .ok (.decAddr bs) ∧
    decode o (.cmd 0x3#4 [.u8 l, .u32 a, .u32 b]) = .ok (.encHdr l a b) ∧
    decode o (.cmd 0x4#4 [.bytes bs.length bs]) = .ok (.decHdr bs) ∧
    decode o (.cmd 0x5#4 [.u32 a, .bytes bs.length bs]) = .ok (.createPkt a bs) ∧
    decode o (.cmd 0x6#4 [.bytes bs.length bs]) = .ok (.decPkt bs) ∧
    decode o (.cmd 0x7#4 [.link k, .bytes bs.length bs]) = .ok (.bufAppend k bs) ∧
    decode o (.cmd 0x8#4 [.link k]) = .ok (.tryExtract k) ∧
    decode o (.cmd 0x9#4 [.u32 a]) = .ok (.route a) ∧
    decode o (.cmd 0xA#4 [.bytes bs.length bs]) = .ok (.processPkt bs) ∧
    decode o (.cmd 0xB#4 [.link k, .bytes bs.length bs]) = .ok (.linkRx k bs) ∧
    decode o (.cmd 0xC#4 [.u32 a, .bytes bs.length bs]) = .ok (.clientSend a bs) ∧
    decode o (.cmd 0xD#4 [.link k]) = .ok (.linkReset k) ∧
    decode o (.linkRx k bs) = decode o (.cmd 0xB#4 [.link k, .bytes bs.length bs]) ∧
    (∀ (op : BitVec 4) (args : List Operand), op = 0x0#4 ∨ op = 0xE#4 ∨ op = 0xF#4 →
      decode o (.cmd op args) = .error (.reservedOpcode op))

/-- A few opcode-table words, whose codes are R311's (decision D12), and the wire header of vector V40.21, whose fields
are R301's. The operands of zeros and link 0 (log entry 16), and that the wire row is an operation on link 0 (log entry
13), are the model's own design choices. -/
def Obligations.TableWordsDecode : Prop :=
  decodeTableWord 8 0x1 = some (.encAddr 0) ∧ decodeTableWord 8 0x5 = some (.createPkt 0 []) ∧
  decodeTableWord 8 0x8 = some (.tryExtract 0) ∧ decodeTableWord 8 0xA = some (.processPkt []) ∧
  decodeTableWord 8 0xB = some (.linkRx 0 []) ∧ decodeTableWord 8 0xE = none ∧
  decodeTableWord 72 0x020A0000010A000002 = some (.pktHeader 0 2 0x0A000001 0x0A000002)

/-- The layout of the 72-bit header (R301): the nine bytes `encodeHeader` lays out are the bits 71:64, 63:56, … 7:0 of the
word, and its fields are those of the table's columns for BE and LE. That the word is read as an operation on a link is
the model's choice (log entry 13). -/
def Obligations.HeaderBitLayout : Prop :=
  ∀ (o : AddrOrder) (k : LinkId) (w : BitVec 72), ∃ (l : Byte) (src dst : Addr),
    decode o (.header k w) = .ok (.pktHeader k l src dst) ∧
    encodeHeader o l src dst =
      [w.extractLsb' 64 8, w.extractLsb' 56 8, w.extractLsb' 48 8, w.extractLsb' 40 8, w.extractLsb' 32 8,
        w.extractLsb' 24 8, w.extractLsb' 16 8, w.extractLsb' 8 8, w.extractLsb' 0 8] ∧
    l = w.extractLsb' 64 8 ∧
    (o = .be → src = w.extractLsb' 32 32 ∧ dst = w.extractLsb' 0 32) ∧
    (o = .le →
      src.extractLsb' 0 8 = w.extractLsb' 56 8 ∧ src.extractLsb' 8 8 = w.extractLsb' 48 8 ∧
      src.extractLsb' 16 8 = w.extractLsb' 40 8 ∧ src.extractLsb' 24 8 = w.extractLsb' 32 8 ∧
      dst.extractLsb' 0 8 = w.extractLsb' 24 8 ∧ dst.extractLsb' 8 8 = w.extractLsb' 16 8 ∧
      dst.extractLsb' 16 8 = w.extractLsb' 8 8 ∧ dst.extractLsb' 24 8 = w.extractLsb' 0 8)

/-! ### The step -/

/-- When the event at the head of the inputs is a transfer that decodes to a well-formed operation, nothing is in
progress on its link, and its append, if it makes one, has room, the step is `exec` of that operation on the state with
the event taken off (the model's `inputs`, log entry 7). -/
def Obligations.StepRunsDecodedOperation : Prop :=
  ∀ (s : State) (t : Transfer) (rest : List Event) (i : Instr),
    s.inputs = .transfer t :: rest →
    decode s.cfg.addrOrder t = .ok i →
    i.wf s.cfg = true →
    (∀ k, i.link? = some k → s.flowOf k = none) →
    (∀ k n, appendOf i = some (k, n) → ∀ c, s.cfg.bufCap = some c → (s.bufOf k).length + n ≤ c) →
    step s = exec i { s with inputs := rest }

/-- A reserved operation code: the status `BadCommand` (4), and nothing else changes (R312; the code is decision D12). -/
def Obligations.ReservedCodeAnswersBadCommand : Prop :=
  ∀ (s : State) (op : BitVec 4) (args : List Operand) (rest : List Event),
    s.inputs = .transfer (.cmd op args) :: rest →
    op = 0x0#4 ∨ op = 0xE#4 ∨ op = 0xF#4 →
    step s = .next { s with inputs := rest, responses := s.responses ++ [.badCommand] } ∧
    statusCode .badCommand = 4

/-- The node with no event placed and none in progress holds its state (R643; `step` answering it unchanged is the
model's choice, log entry 8). -/
def Obligations.IdleNodeHoldsItsState : Prop :=
  ∀ s : State, s.inputs = [] → s.flows = [] → step s = .next s

/-- An operation on a link whose link-read event is in progress is not served before that event moves on (R221): with it
as the only input, the step is the event's own next primitive step, and the operation still waits. The waiting is log
entry 9 (an inference), and that the step is then the event's own next one is the model's scheduling, log entry 8. -/
def Obligations.SameLinkOperationWaits : Prop :=
  ∀ (s : State) (t : Transfer) (i : Instr) (k : LinkId) (f : RxFlow),
    s.inputs = [.transfer t] → decode s.cfg.addrOrder t = .ok i → i.link? = some k →
    s.flows = [f] → f.link = k →
    step s = .next (s.rxAdvanceFlow f) ∧ (s.rxAdvanceFlow f).inputs = [.transfer t]

/-- With a finite `BUF_CAP` and no room, bytes for a link are held, whichever way they arrive: nothing happens and no byte
is dropped (decision D3, U10; log entry 10). Taken alone, the operation is not enabled. A wire header is nine bytes that
arrive (log entry 13). -/
def Obligations.FullBufferHoldsArrivingBytes : Prop :=
  ∀ (s : State) (k : LinkId) (bs : Bytes) (c : Nat), s.cfg.bufCap = some c →
    (c < (s.bufOf k).length + bs.length →
      exec (.bufAppend k bs) s = .fault (.appendNotEnabled k) ∧
      exec (.linkRx k bs) s = .fault (.appendNotEnabled k) ∧
      ∀ e ∈ [Event.transfer (.linkRx k bs), .transfer (.cmd 0xB#4 [.link k, .bytes bs.length bs]),
          .transfer (.cmd 0x7#4 [.link k, .bytes bs.length bs]), .rxBegin k bs],
        s.inputs = [e] → s.flows = [] → step s = .next s) ∧
    (c < (s.bufOf k).length + 9 →
      (∀ (len : Byte) (src dst : Addr), exec (.pktHeader k len src dst) s = .fault (.appendNotEnabled k)) ∧
      ∀ w : BitVec 72, s.inputs = [.transfer (.header k w)] → s.flows = [] → step s = .next s)

/-- Appends of one link keep their order (R221): while the oldest is held, for want of room (decision D3, log entry 10) or
because a link-read event is in progress on the link (log entry 9), the later ones wait behind it, even one that has room;
an operation on another link is served before them all (R222; that events pass one that waits is log entry 8). -/
def Obligations.LaterAppendsWaitBehindHeldOne : Prop :=
  ∀ (s : State) (k : LinkId) (bs : Bytes) (later rest : List Event),
    ((∃ c, s.cfg.bufCap = some c ∧ c < (s.bufOf k).length + bs.length) ∨ s.flowOf k ≠ none) →
    (∀ e ∈ later, ∃ bs', e = .transfer (.linkRx k bs') ∨ e = .rxBegin k bs' ∨
      e = .transfer (.cmd 0x7#4 [.link k, .bytes bs'.length bs']) ∨
      e = .transfer (.cmd 0xB#4 [.link k, .bytes bs'.length bs']) ∨ ∃ w, e = .transfer (.header k w)) →
    s.inputs = .transfer (.linkRx k bs) :: (later ++ rest) →
    (rest = [] → (s.flows = [] → step s = .next s) ∧
      ∀ f fs, s.flows = f :: fs → step s = .next (s.rxAdvanceFlow f)) ∧
    (∀ (t : Transfer) (more : List Event) (i : Instr),
      rest = .transfer t :: more → decode s.cfg.addrOrder t = .ok i → i.wf s.cfg = true → i.link? ≠ some k →
      (∀ j, i.link? = some j → s.flowOf j = none) →
      (∀ j n, appendOf i = some (j, n) → ∀ c, s.cfg.bufCap = some c → (s.bufOf j).length + n ≤ c) →
      step s = exec i { s with inputs := .transfer (.linkRx k bs) :: (later ++ more) })

/-- No step of a node ends in a fault: no error of the core stops it (R606, R607), and an append that is not enabled is
not served (log entry 10). -/
def Obligations.StepNeverFaults : Prop :=
  ∀ (s : State) (r : Fault), step s ≠ .fault r

/-- `RESET` (R700, R701; decision D16): every buffer is empty and nothing else changes; right after reset every buffer
is empty. That `RESET` waits for events in progress and returns no response are inferences, log entries 9 and 20. -/
def Obligations.ResetEmptiesEveryBuffer : Prop :=
  (∀ (s : State) (rest : List Event), s.inputs = .reset :: rest → s.flows = [] →
    ∃ m, step s = .next { s with inputs := rest, buf := m } ∧ ∀ k, memGet m k = []) ∧
  ∀ k, State.reset.bufOf k = []

/-- A change of `LINK_SET` by the environment (R103, R224): exactly the given identifiers, and nothing else changes.
That identifiers must fit `LINK_ID_W` is log entry 14. -/
def Obligations.LinkSetIsReplaced : Prop :=
  ∀ (s : State) (ks : List LinkId) (rest : List Event),
    s.inputs = .setLinkSet ks :: rest → (∀ k ∈ ks, fitsLinkId s.cfg.linkIdW k = true) →
    ∃ l, step s = .next { s with inputs := rest, linkSet := l } ∧ ∀ k, k ∈ l ↔ k ∈ ks

/-- A sample made ready on port `rand` (R116, R107) goes to the tail of those that are ready, and nothing else changes.
That State holds samples ahead of their draws is the model's choice, log entry 4. -/
def Obligations.SampleGoesToTheTail : Prop :=
  ∀ (s : State) (r : Nat) (rest : List Event),
    s.inputs = .randSample r :: rest → step s = .next { s with inputs := rest, rand := s.rand ++ [r] }

/-! ### Header Codec -/

/-- `ENC_ADDR` (R400), under either `ADDR_ORDER`. -/
def Obligations.EncodeAddressResult : Prop :=
  ∀ (s : State) (a : Addr),
    (s.cfg.addrOrder = .be → exec (.encAddr a) s = .next { s with responses := s.responses ++
      [.ok (.bytes [a.extractLsb' 24 8, a.extractLsb' 16 8, a.extractLsb' 8 8, a.extractLsb' 0 8])] }) ∧
    (s.cfg.addrOrder = .le → exec (.encAddr a) s = .next { s with responses := s.responses ++
      [.ok (.bytes [a.extractLsb' 0 8, a.extractLsb' 8 8, a.extractLsb' 16 8, a.extractLsb' 24 8])] }) ∧
    decodeAddress s.cfg.addrOrder (encodeAddress s.cfg.addrOrder a) = .ok a

/-- `DEC_ADDR` (R401); that bytes after the fourth are ignored is decision D6 (log entry 18). -/
def Obligations.DecodeAddressResult : Prop :=
  ∀ (s : State),
    (∀ (b0 b1 b2 b3 : Byte) (rest : Bytes), ∃ a : Addr,
      a.toNat = (if s.cfg.addrOrder = .be
        then b0.toNat * 2 ^ 24 + b1.toNat * 2 ^ 16 + b2.toNat * 2 ^ 8 + b3.toNat
        else b3.toNat * 2 ^ 24 + b2.toNat * 2 ^ 16 + b1.toNat * 2 ^ 8 + b0.toNat) ∧
      exec (.decAddr (b0 :: b1 :: b2 :: b3 :: rest)) s =
        .next { s with responses := s.responses ++ [.ok (.addr a)] }) ∧
    (∀ bs : Bytes, bs.length < 4 → exec (.decAddr bs) s =
      .next { s with responses := s.responses ++ [.error (.malformedHeader 4 bs.length)] })

/-- `ENC_HDR` (R402; that it is an operation of its own is decision D12). -/
def Obligations.EncodeHeaderResult : Prop :=
  ∀ (s : State) (l : Byte) (src dst : Addr),
    exec (.encHdr l src dst) s = .next { s with responses := s.responses ++
      [.ok (.bytes ([l] ++ encodeAddress s.cfg.addrOrder src ++ encodeAddress s.cfg.addrOrder dst))] } ∧
    ([l] ++ encodeAddress s.cfg.addrOrder src ++ encodeAddress s.cfg.addrOrder dst).length = 9

/-- `DEC_HDR` (R403): nine bytes or more decode by their first nine, whatever their values; fewer are an error. That
bytes after the ninth are ignored is the spec's own decision D6, which the model follows (log entry 18). -/
def Obligations.DecodeHeaderResult : Prop :=
  ∀ (s : State) (bs : Bytes),
    (9 ≤ bs.length → ∃ src dst : Addr,
      decodeAddress s.cfg.addrOrder (slice bs 1 5) = .ok src ∧
      decodeAddress s.cfg.addrOrder (slice bs 5 9) = .ok dst ∧
      exec (.decHdr bs) s = .next { s with responses := s.responses ++ [.ok (.header ⟨bs.headD 0, src, dst⟩)] }) ∧
    (bs.length < 9 → exec (.decHdr bs) s =
      .next { s with responses := s.responses ++ [.error (.malformedHeader 9 bs.length)] })

/-- The four inverse laws of the codec, and that mixing the two orders inverts nothing but byte palindromes (R404; all
but the first law are the spec's own derivation there). -/
def Obligations.CodecInverseLaws : Prop :=
  ∀ o : AddrOrder,
    (∀ a, decodeAddress o (encodeAddress o a) = .ok a) ∧
    (∀ bs : Bytes, bs.length = 4 → ∃ a, decodeAddress o bs = .ok a ∧ encodeAddress o a = bs) ∧
    (∀ l src dst, decodeHeader o (encodeHeader o l src dst) = .ok ⟨l, src, dst⟩) ∧
    (∀ bs : Bytes, bs.length = 9 → ∃ l src dst,
      decodeHeader o bs = .ok ⟨l, src, dst⟩ ∧ encodeHeader o l src dst = bs) ∧
    (∀ o' a, o' ≠ o →
      (decodeAddress o' (encodeAddress o a) = .ok a ↔ encodeAddress o a = (encodeAddress o a).reverse))

/-! ### Packet Framer -/

/-- `CREATE_PKT` (R410): the source is the node's own address, and above 255 bytes nothing is produced. -/
def Obligations.CreatePacketResult : Prop :=
  ∀ (s : State) (dst : Addr) (pl : Bytes),
    (pl.length ≤ 255 → ∃ p : Bytes,
      p = [BitVec.ofNat 8 pl.length] ++ encodeAddress s.cfg.addrOrder s.localAddr ++
        encodeAddress s.cfg.addrOrder dst ++ pl ∧
      p.length = 9 + pl.length ∧
      exec (.createPkt dst pl) s = .next { s with responses := s.responses ++ [.ok (.bytes p)] }) ∧
    (255 < pl.length → exec (.createPkt dst pl) s =
      .next { s with responses := s.responses ++ [.error (.payloadTooLarge pl.length)] })

/-- `DEC_PKT` (R411): the header fields and every byte after the header; that the length byte is not compared with the
size is decision D7 (log entry 18). -/
def Obligations.DecodePacketResult : Prop :=
  ∀ (s : State) (p : Bytes),
    (9 ≤ p.length → ∃ src dst : Addr,
      decodeAddress s.cfg.addrOrder (slice p 1 5) = .ok src ∧
      decodeAddress s.cfg.addrOrder (slice p 5 9) = .ok dst ∧
      exec (.decPkt p) s =
        .next { s with responses := s.responses ++ [.ok (.packet ⟨p.headD 0, src, dst⟩ (p.drop 9))] }) ∧
    (p.length < 9 → exec (.decPkt p) s =
      .next { s with responses := s.responses ++ [.error (.malformedHeader 9 p.length)] })

/-- The framer's round trip, length and injectivity (R412, the last two its derived sentence). -/
def Obligations.FramerRoundTrip : Prop :=
  ∀ (s : State) (d : Addr) (pl : Bytes), pl.length ≤ 255 → ∃ p : Bytes,
    exec (.createPkt d pl) s = .next { s with responses := s.responses ++ [.ok (.bytes p)] } ∧
    exec (.decPkt p) s = .next { s with responses := s.responses ++
      [.ok (.packet ⟨BitVec.ofNat 8 pl.length, s.localAddr, d⟩ pl)] } ∧
    p.length = 9 + pl.length ∧
    ∀ (d' : Addr) (pl' : Bytes),
      exec (.createPkt d' pl') s = .next { s with responses := s.responses ++ [.ok (.bytes p)] } → d' = d ∧ pl' = pl

/-! ### Stream Reassembler -/

/-- `BUF_APPEND` (R420) where it is enabled: the bytes go to the tail of `buf[k]`, and every other buffer is as before.
That a finite `BUF_CAP` disables an append is decision D3. -/
def Obligations.AppendResult : Prop :=
  ∀ (s : State) (k : LinkId) (bs : Bytes),
    (∀ c, s.cfg.bufCap = some c → (s.bufOf k).length + bs.length ≤ c) →
    ∃ m, exec (.bufAppend k bs) s = .next { s with buf := m, responses := s.responses ++ [.ok .done] } ∧
      memGet m k = s.bufOf k ++ bs ∧ ∀ j, j ≠ k → memGet m j = s.bufOf j

/-- `TRY_EXTRACT` (R421, R209): `None` with the buffer as it was while a packet is incomplete; otherwise exactly the
first `9 + L` bytes leave the head of the buffer in the same step and are the result. -/
def Obligations.TryExtractResult : Prop :=
  ∀ (s : State) (k : LinkId),
    let b := s.bufOf k
    let l := (b.headD 0).toNat
    (b.length < 9 ∨ b.length < 9 + l → exec (.tryExtract k) s =
      .next { s with responses := s.responses ++ [.ok (.extracted none)] }) ∧
    (9 + l ≤ b.length → ∃ m, exec (.tryExtract k) s =
        .next { s with buf := m, responses := s.responses ++ [.ok (.extracted (some (b.take (9 + l))))] } ∧
      (b.take (9 + l)).length = 9 + l ∧
      memGet m k = b.drop (9 + l) ∧ ∀ j, j ≠ k → memGet m j = s.bufOf j)

/-- What `CREATE_PKT` and `TRY_EXTRACT` return is a well-formed packet of 9 to 264 bytes (the derived sentence of R303).
-/
def Obligations.ReturnedPacketsAreWellFormed : Prop :=
  ∀ (s t : State) (p : Bytes),
    (∀ (dst : Addr) (pl : Bytes), exec (.createPkt dst pl) s = .next t →
      t.responses = s.responses ++ [.ok (.bytes p)] → PacketWellFormed p ∧ 9 ≤ p.length ∧ p.length ≤ 264) ∧
    (∀ k : LinkId, exec (.tryExtract k) s = .next t →
      t.responses = s.responses ++ [.ok (.extracted (some p))] → PacketWellFormed p ∧ 9 ≤ p.length ∧ p.length ≤ 264)

/-- The minimum-header boundary (R710): eight bytes of any content give `None`; nine bytes with declared length 0 give a
packet with empty payload. -/
def Obligations.MinimumHeaderBoundary : Prop :=
  ∀ (s : State) (k : LinkId),
    ((s.bufOf k).length = 8 → exec (.tryExtract k) s =
      .next { s with responses := s.responses ++ [.ok (.extracted none)] }) ∧
    ((s.bufOf k).length = 9 → (s.bufOf k).headD 0 = 0 → ∃ m, exec (.tryExtract k) s =
        .next { s with buf := m, responses := s.responses ++ [.ok (.extracted (some (s.bufOf k)))] } ∧
      memGet m k = [] ∧ (s.bufOf k).drop 9 = [] ∧ ∀ j, j ≠ k → memGet m j = s.bufOf j)

/-- Reads have no side effect: on an incomplete packet the attempt, repeated any number of times, returns `None` and
changes nothing (R208). -/
def Obligations.IncompletePacketIsPeekedOnly : Prop :=
  ∀ (s : State) (k : LinkId) (n : Nat),
    (s.bufOf k).length < 9 ∨ (s.bufOf k).length < 9 + ((s.bufOf k).headD 0).toNat →
    execAll (List.replicate n (.tryExtract k)) s =
      .next { s with responses := s.responses ++ List.replicate n (.ok (.extracted none)) }

/-- Feeding one packet in pieces (R422): with an attempt after each piece, `None` after every piece but the last, then
the packet; bytes after the packet in the last piece stay. One byte at a time is the case of one-byte pieces; other
pieces are the spec's own derivation in R422. -/
def Obligations.PiecewiseFeeding : Prop :=
  ∀ (s : State) (k : LinkId) (init : List Bytes) (last extra : Bytes),
    s.bufOf k = [] → last ≠ [] → PacketWellFormed (init.flatten ++ last) →
    (∀ c, s.cfg.bufCap = some c → (init.flatten ++ last ++ extra).length ≤ c) →
    ∃ t, execAll (init.flatMap (fun x => [.bufAppend k x, .tryExtract k]) ++
          [.bufAppend k (last ++ extra), .tryExtract k]) s = .next t ∧
      t.responses = s.responses ++ init.flatMap (fun _ => [.ok .done, .ok (.extracted none)]) ++
        [.ok .done, .ok (.extracted (some (init.flatten ++ last)))] ∧
      t.bufOf k = extra ∧ ∀ j, j ≠ k → t.bufOf j = s.bufOf j

/-- Concatenated packets (R423): however the stream of the packets is cut into appends, and wherever attempts stand
between them, the packets extracted are a prefix of the packets sent; after enough attempts they are all of them, the
buffer is empty and the next attempt gives `None`. The general case is the spec's own derivation in R423. -/
def Obligations.ConcatenatedPackets : Prop :=
  ∀ (s : State) (k : LinkId) (ps : List Bytes) (is : List Instr),
    s.bufOf k = [] → (∀ p ∈ ps, PacketWellFormed p) → s.cfg.bufCap = none →
    (∀ i ∈ is, reassemblerOp k i = true) → appendedBytes is = ps.flatten →
    (∃ t, execAll is s = .next t ∧ extractedPackets (t.responses.drop s.responses.length) <+: ps) ∧
    (∃ t, execAll (is ++ List.replicate ps.length (.tryExtract k)) s = .next t ∧
      extractedPackets (t.responses.drop s.responses.length) = ps ∧ t.bufOf k = [] ∧
      exec (.tryExtract k) t = .next { t with responses := t.responses ++ [.ok (.extracted none)] })

/-- Stream conservation (R424): the packets extracted followed by the present buffer are the buffer at the start
followed by the bytes appended (R424 is the spec's own derivation). Here the operations are those of the Reassembler. -/
def Obligations.StreamConservation : Prop :=
  ∀ (s t : State) (k : LinkId) (is : List Instr),
    (∀ i ∈ is, reassemblerOp k i = true) → execAll is s = .next t →
    (extractedPackets (t.responses.drop s.responses.length)).flatten ++ t.bufOf k =
      s.bufOf k ++ appendedBytes is

/-- The bound on occupancy under prompt extraction (R425): once an attempt has returned `None` the buffer holds at most
263 bytes, and one more byte makes at most 264 (R425 is the spec's own derivation). -/
def Obligations.OccupancyBound : Prop :=
  ∀ (s t u : State) (k : LinkId) (b : Byte),
    exec (.tryExtract k) s = .next t → t.responses = s.responses ++ [.ok (.extracted none)] →
    exec (.bufAppend k [b]) t = .next u →
    (t.bufOf k).length ≤ 263 ∧ (u.bufOf k).length ≤ 264

/-! ### Forwarding Engine -/

/-- `ROUTE` (R430; the order of the snapshot is decision D4, the free draw decision D5). Empty link set: the error, no
draw. Otherwise one draw, and a member of the link set. Every member is a possible answer; a legal sample `r` selects
the member at index `r` of the ascending snapshot; a single link is the answer whatever the draw; the destination has no
influence. How a draw is taken from the samples is log entry 4. -/
def Obligations.RouteResult : Prop :=
  ∀ (s : State) (d : Addr),
    (s.linkSet = [] → exec (.route d) s =
      .next { s with responses := s.responses ++ [.error .noLinksAvailable] }) ∧
    (s.linkSet ≠ [] → ∃ k ∈ s.linkSet, exec (.route d) s =
      .next { drawn s with responses := s.responses ++ [.ok (.link k)] }) ∧
    (∀ k ∈ s.linkSet, ∃ r, r < s.snapshot.length ∧ ∀ rs, exec (.route d) { s with rand := r :: rs } =
      .next { s with rand := rs, responses := s.responses ++ [.ok (.link k)] }) ∧
    (∀ r k rs, s.cfg.snapshotFirst = [] → s.linkSet[r]? = some k → exec (.route d) { s with rand := r :: rs } =
      .next { s with rand := rs, responses := s.responses ++ [.ok (.link k)] }) ∧
    (∀ k, s.linkSet = [k] → exec (.route d) s =
      .next { drawn s with responses := s.responses ++ [.ok (.link k)] }) ∧
    (∀ d', exec (.route d') s = exec (.route d) s)

/-- `PROCESS_PKT` (R431, R442): exactly one of an error for a short operand, one `ClientReceive` of the payload, one
`LinkSend` of the unchanged packet to the link `ROUTE` chooses, or the drop of the packet; no draw but when forwarding.
The short case is decision D8, the payload of an ill-formed packet decision D7 (log entry 18); how a draw is taken is log
entry 4. -/
def Obligations.ProcessPacketResult : Prop :=
  ∀ (s : State) (p : Bytes),
    (p.length < 9 → exec (.processPkt p) s =
      .next { s with responses := s.responses ++ [.error (.malformedHeader 9 p.length)] }) ∧
    (9 ≤ p.length → destinationOf s.cfg.addrOrder p = s.localAddr → exec (.processPkt p) s =
      .next { s with outputs := s.outputs ++ [.clientReceive (p.drop 9)],
                     responses := s.responses ++ [.ok .delivered] }) ∧
    (9 ≤ p.length → destinationOf s.cfg.addrOrder p ≠ s.localAddr → s.linkSet = [] → exec (.processPkt p) s =
      .next { s with responses := s.responses ++ [.error .noLinksAvailable] }) ∧
    (9 ≤ p.length → destinationOf s.cfg.addrOrder p ≠ s.localAddr → s.linkSet ≠ [] →
      ∃ k ∈ s.linkSet,
        exec (.route (destinationOf s.cfg.addrOrder p)) s =
          .next { drawn s with responses := s.responses ++ [.ok (.link k)] } ∧
        exec (.processPkt p) s =
          .next { drawn s with outputs := s.outputs ++ [.linkSend k p],
                               responses := s.responses ++ [.ok (.forwarded k)] })

/-- Whatever an operation emits is emitted by `PROCESS_PKT`, by a link-read event or by `CLIENT_SEND`; `CLIENT_SEND`
never calls into the client; and every `LinkSend` goes to a member of the link set of its step (R440, R441). -/
def Obligations.OutputsHaveTheirSource : Prop :=
  ∀ (i : Instr) (s t : State), exec i s = .next t → ∃ l : List Output,
    t.outputs = s.outputs ++ l ∧
    (∀ k bs, Output.linkSend k bs ∈ l → k ∈ s.linkSet ∧ 9 ≤ bs.length) ∧
    ((∀ p, i ≠ .processPkt p) → (∀ k bs, i ≠ .linkRx k bs) → (∀ k n a b, i ≠ .pktHeader k n a b) →
      ((∀ bs, Output.clientReceive bs ∉ l) ∧ ((∀ d pl, i ≠ .clientSend d pl) → l = [])))

/-- The same of every step, the primitive steps of a link-read event in progress among them (R224, R440, R441): every
`LinkSend` of a step goes to a member of the link set of that step; only a transfer, or the processing of a packet that an
event in progress has extracted, emits anything, and the latter emits what `PROCESS_PKT` of that packet emits. Which event
the step serves is the model's scheduling, log entry 8. -/
def Obligations.StepOutputsHaveTheirSource : Prop :=
  ∀ (s t : State), step s = .next t → ∃ l : List Output,
    t.outputs = s.outputs ++ l ∧
    (∀ k bs, Output.linkSend k bs ∈ l → k ∈ s.linkSet ∧ 9 ≤ bs.length) ∧
    ((∀ x rest, s.pick [] s.inputs ≠ some (.transfer x, rest)) → (∀ f, servedFlow s = some f → f.pending = none) →
      l = []) ∧
    (∀ f p, servedFlow s = some f → f.pending = some p → ∃ u, exec (.processPkt p) s = .next u ∧ t.outputs = u.outputs)

/-! ### Node events -/

/-- `LINK_RX` (R450), and the wire header that arrives like any other bytes (the model's choice, log entry 13): where the
append has room it completes with its list of outcomes, and changes only its own buffer, the outputs and the draws. -/
def Obligations.LinkReadCompletes : Prop :=
  ∀ (s : State) (k : LinkId) (bs : Bytes),
    (∀ c, s.cfg.bufCap = some c → (s.bufOf k).length + bs.length ≤ c) →
    ∃ m rs n l os, exec (.linkRx k bs) s =
        .next { s with buf := m, rand := rs, randCount := n, outputs := s.outputs ++ l,
                       responses := s.responses ++ [.ok (.outcomes k os)] } ∧
      (∀ j, j ≠ k → memGet m j = s.bufOf j) ∧
      ∀ (len : Byte) (src dst : Addr), bs = encodeHeader s.cfg.addrOrder len src dst →
        exec (.pktHeader k len src dst) s =
          .next { s with buf := m, rand := rs, randCount := n, outputs := s.outputs ++ l,
                         responses := s.responses ++ [.ok (.outcomes k os)] }

/-- The arrival of a wire header (the model's choice, log entry 13; R301, R112): room for nine bytes is all it needs. A
header that declares a payload, on an empty buffer, waits there; the header of an empty packet for this node is a whole
packet, delivered at once. -/
def Obligations.WireHeaderArrives : Prop :=
  ∀ (s : State) (k : LinkId) (len : Byte) (src dst : Addr),
    s.bufOf k = [] → (∀ c, s.cfg.bufCap = some c → 9 ≤ c) →
    (len ≠ 0 → ∃ m, exec (.pktHeader k len src dst) s =
        .next { s with buf := m, responses := s.responses ++ [.ok (.outcomes k [])] } ∧
      memGet m k = encodeHeader s.cfg.addrOrder len src dst ∧ ∀ j, j ≠ k → memGet m j = s.bufOf j) ∧
    (len = 0 → dst = s.localAddr → ∃ m, exec (.pktHeader k len src dst) s =
        .next { s with buf := m, outputs := s.outputs ++ [.clientReceive []],
                       responses := s.responses ++ [.ok (.outcomes k [.delivered])] } ∧
      memGet m k = [] ∧ ∀ j, j ≠ k → memGet m j = s.bufOf j)

/-- `LINK_RX` turn by turn (R450; one attempt or attempts until `None` is decision D2): with no complete packet the bytes
are appended and nothing else happens; otherwise the packet leaves the buffer and is processed, its error or result is
its outcome, and with `RX_DRAIN` the event goes on as one that brings no bytes. -/
def Obligations.LinkReadTurnByTurn : Prop :=
  ∀ (s : State) (k : LinkId) (bs : Bytes),
    (∀ c, s.cfg.bufCap = some c → (s.bufOf k).length + bs.length ≤ c) →
    let b := s.bufOf k ++ bs
    let l := (b.headD 0).toNat
    (b.length < 9 ∨ b.length < 9 + l → ∃ m, exec (.linkRx k bs) s =
        .next { s with buf := m, responses := s.responses ++ [.ok (.outcomes k [])] } ∧
      memGet m k = b ∧ ∀ j, j ≠ k → memGet m j = s.bufOf j) ∧
    (9 + l ≤ b.length → ∃ m, memGet m k = b.drop (9 + l) ∧ (∀ j, j ≠ k → memGet m j = s.bufOf j) ∧
      let r := ({ s with buf := m } : State).processPacket (b.take (9 + l))
      (s.cfg.rxDrain = false → exec (.linkRx k bs) s =
        .next { r.2 with responses := s.responses ++ [.ok (.outcomes k [r.1])] }) ∧
      (s.cfg.rxDrain = true → ∃ t os, exec (.linkRx k []) r.2 = .next t ∧
        t.responses = s.responses ++ [.ok (.outcomes k os)] ∧
        exec (.linkRx k bs) s = .next { t with responses := s.responses ++ [.ok (.outcomes k (r.1 :: os))] }))

/-- The first primitive step of a link-read event, its append (R450, step 1), where it is enabled. The event `rxBegin` and
the place kept for the event are the model's, log entry 8. -/
def Obligations.LinkReadBegins : Prop :=
  ∀ (s : State) (k : LinkId) (bs : Bytes) (rest : List Event),
    s.inputs = .rxBegin k bs :: rest → s.flowOf k = none → fitsLinkId s.cfg.linkIdW k = true →
    (∀ c, s.cfg.bufCap = some c → (s.bufOf k).length + bs.length ≤ c) →
    ∃ m, step s = .next { s with inputs := rest, buf := m, flows := s.flows ++ [⟨k, none, []⟩] } ∧
      memGet m k = s.bufOf k ++ bs ∧ ∀ j, j ≠ k → memGet m j = s.bufOf j

/-- The next primitive step of a link-read event in progress (R450, steps 2 and 3): an attempt that ends the event or takes
a packet off, or the processing of the packet taken off, after which the event ends or, with `RX_DRAIN`, attempts again
(decision D2). The event `rxAdvance` and the place kept are the model's, log entry 8; the response at the end is log entry
23. -/
def Obligations.LinkReadAdvances : Prop :=
  ∀ (s : State) (k : LinkId) (f : RxFlow) (rest : List Event),
    s.inputs = .rxAdvance k :: rest → s.flowOf k = some f →
    let b := s.bufOf k
    let l := (b.headD 0).toNat
    let ended := s.flows.filter fun g => g.link != k
    let moved := fun (p : Option Bytes) (os : List PktOutcome) =>
      s.flows.map fun g => if g.link = k then ⟨k, p, os⟩ else g
    (f.pending = none → b.length < 9 ∨ b.length < 9 + l → step s =
      .next { s with inputs := rest, flows := ended, responses := s.responses ++ [.ok (.outcomes k f.outcomes)] }) ∧
    (f.pending = none → 9 + l ≤ b.length → ∃ m, step s =
        .next { s with inputs := rest, buf := m, flows := moved (some (b.take (9 + l))) f.outcomes } ∧
      memGet m k = b.drop (9 + l) ∧ ∀ j, j ≠ k → memGet m j = s.bufOf j) ∧
    (∀ p, f.pending = some p →
      let r := ({ s with inputs := rest } : State).processPacket p
      (s.cfg.rxDrain = true → step s = .next { r.2 with flows := moved none (f.outcomes ++ [r.1]) }) ∧
      (s.cfg.rxDrain = false → step s =
        .next { r.2 with flows := ended, responses := s.responses ++ [.ok (.outcomes k (f.outcomes ++ [r.1]))] }))

/-- With `RX_DRAIN` a link-read event leaves no complete packet in its buffer, hence at most 263 bytes (R450, R425). -/
def Obligations.DrainingLeavesNoPacket : Prop :=
  ∀ (s t : State) (k : LinkId) (bs : Bytes),
    s.cfg.rxDrain = true → exec (.linkRx k bs) s = .next t →
    (t.bufOf k).length ≤ 263 ∧
    exec (.tryExtract k) t = .next { t with responses := t.responses ++ [.ok (.extracted none)] }

/-- A link-read event served one primitive step at a time, with nothing between its steps, is the event served at once:
the model's interleaved form (log entry 8) refines R450. -/
def Obligations.PrimitiveStepsMakeUpLinkRead : Prop :=
  ∀ (s : State) (k : LinkId) (bs : Bytes),
    fitsLinkId s.cfg.linkIdW k = true →
    (∀ c, s.cfg.bufCap = some c → (s.bufOf k).length + bs.length ≤ c) →
    ∃ n, Sys2Proof.core.run n ({ s with inputs := [.rxBegin k bs], flows := [] } : State) =
      exec (.linkRx k bs) { s with inputs := [], flows := [] }

/-- The two settings of `RX_DRAIN` agree up to delay (R465, the spec's own derivation), for a sequence of link-read events
on one link while `LINK_SET` stays the same: after the sequence the draining node has done all that the other has, and the
other's buffer holds, before the same rest, exactly the packets it has still to extract; as many more events that bring no
bytes, and the two agree in outputs, outcomes, draws and buffers. How draws are taken is log entry 4. -/
def Obligations.DrainSettingsAgreeUpToDelay : Prop :=
  ∀ (s u : State) (k : LinkId) (arrivals : List Bytes),
    execAll (arrivals.map (.linkRx k)) { s with cfg := { s.cfg with rxDrain := false } } = .next u →
    ∃ t, execAll (arrivals.map (.linkRx k)) { s with cfg := { s.cfg with rxDrain := true } } = .next t ∧
      u.outputs <+: t.outputs ∧ receivedOutcomes k u.responses <+: receivedOutcomes k t.responses ∧
      ∃ ps : List Bytes, (∀ p ∈ ps, PacketWellFormed p) ∧ u.bufOf k = ps.flatten ++ t.bufOf k ∧
        ∃ v, execAll (List.replicate ps.length (.linkRx k [])) u = .next v ∧
          v.outputs = t.outputs ∧ receivedOutcomes k v.responses = receivedOutcomes k t.responses ∧
          v.rand = t.rand ∧ v.randCount = t.randCount ∧ ∀ j, v.bufOf j = t.bufOf j

/-- `CLIENT_SEND` (R455, R610; decisions D9 and D17, log entries 4 and 17): too large a payload is refused first, then an
empty link set; otherwise one `LinkSend` of the framed packet to the link `ROUTE` chooses, and no delivery here even to the
node's own address. -/
def Obligations.ClientSendResult : Prop :=
  ∀ (s : State) (dst : Addr) (pl : Bytes),
    (255 < pl.length → exec (.clientSend dst pl) s =
      .next { s with responses := s.responses ++ [.error (.payloadTooLarge pl.length)] }) ∧
    (pl.length ≤ 255 → s.linkSet = [] → exec (.clientSend dst pl) s =
      .next { s with responses := s.responses ++ [.error .noLinksAvailable] }) ∧
    (pl.length ≤ 255 → s.linkSet ≠ [] → ∃ p, ∃ k ∈ s.linkSet,
      exec (.createPkt dst pl) s = .next { s with responses := s.responses ++ [.ok (.bytes p)] } ∧
      exec (.route dst) s = .next { drawn s with responses := s.responses ++ [.ok (.link k)] } ∧
      exec (.clientSend dst pl) s =
        .next { drawn s with outputs := s.outputs ++ [.linkSend k p],
                             responses := s.responses ++ [.ok (.sent k)] })

/-- A client cannot make the node send a packet with another source address (R631, R410). -/
def Obligations.ClientCannotSpoofSource : Prop :=
  ∀ (s t : State) (dst : Addr) (pl p : Bytes) (k : LinkId),
    exec (.clientSend dst pl) s = .next t → t.outputs = s.outputs ++ [.linkSend k p] →
    ∃ l, decodeHeader s.cfg.addrOrder p = .ok ⟨l, s.localAddr, dst⟩

/-- `LINK_RESET` (R460; decision D11): `buf[k]` is empty and nothing else changes. -/
def Obligations.LinkResetResult : Prop :=
  ∀ (s : State) (k : LinkId), ∃ m,
    exec (.linkReset k) s = .next { s with buf := m, responses := s.responses ++ [.ok .done] } ∧
    memGet m k = [] ∧ ∀ j, j ≠ k → memGet m j = s.bufOf j

/-! ### Over all operations -/

/-- Every operation that completes returns exactly one status, the one the table of R608 gives it (R600). -/
def Obligations.EveryOperationReturnsItsStatus : Prop :=
  ∀ (i : Instr) (s t : State), exec i s = .next t →
    ∃ r, t.responses = s.responses ++ [r] ∧ statusCode r = statusTable i s

/-- An operation that returns an error changed no state and emitted nothing (R606). -/
def Obligations.ErrorsArePrecise : Prop :=
  ∀ (i : Instr) (s t : State) (e : CoreError), exec i s = .next t → t.responses = s.responses ++ [.error e] →
    t = { s with responses := s.responses ++ [.error e] }

/-- No operation writes the buffer of a link it does not name (R222). -/
def Obligations.OperationTouchesOneBuffer : Prop :=
  ∀ (i : Instr) (s t : State), exec i s = .next t →
    ∀ j, i.link? ≠ some j → t.bufOf j = s.bufOf j

/-- The same of every step but `RESET` (R222): it writes no buffer but that of the link of the event it serves, or of the
link-read event in progress that it moves on (the model's scheduling, log entry 8). -/
def Obligations.StepTouchesOneBuffer : Prop :=
  ∀ s t : State, step s = .next t → (∀ rest, s.pick [] s.inputs ≠ some (.reset, rest)) →
    ∀ j, servedLink s ≠ some j → t.bufOf j = s.bufOf j

/-- Operations on two links commute as far as the buffers are concerned (R222, R225): both orders complete and leave the
same bytes on every link. -/
def Obligations.LinksCommute : Prop :=
  ∀ (i j : Instr) (k l : LinkId) (s t : State), i.link? = some k → j.link? = some l → k ≠ l →
    execAll [i, j] s = .next t → ∃ u, execAll [j, i] s = .next u ∧ ∀ n, u.bufOf n = t.bufOf n

/-- `LOCAL_ADDR` and the parameters stay as they are, whatever happens (R102, R203). -/
def Obligations.StepKeepsAddressAndParameters : Prop :=
  ∀ s t : State, step s = .next t → t.localAddr = s.localAddr ∧ t.cfg = s.cfg

/-- Every step keeps the invariant of Safety.lean: the buffers in canonical form and within a finite `BUF_CAP` (R420), a
rising link set (R103), at most one link-read event in progress on a link (R221), a well-formed packet between extraction
and processing (R303), and a whole header in everything sent (R431, R440). The canonical form is log entries 5 and 22. -/
def Obligations.StepKeepsInvariant : Prop :=
  ∀ s t : State, NodeInvariant s → step s = .next t → NodeInvariant t

/-- The node right after reset meets the invariant. -/
def Obligations.ResetMeetsInvariant : Prop :=
  NodeInvariant State.reset

/-! ### Between nodes -/

/-- End-to-end transparency (R443), one originating, one forwarding and one receiving node with one `ADDR_ORDER`: the
packet created is sent on unchanged and never delivered on the way, and the node it is for delivers exactly the payload
once its bytes have arrived, here in one event on an empty buffer. -/
def Obligations.EndToEndTransparency : Prop :=
  ∀ (a b d : State) (dst : Addr) (pl : Bytes) (k : LinkId),
    b.cfg.addrOrder = a.cfg.addrOrder → d.cfg.addrOrder = a.cfg.addrOrder → pl.length ≤ 255 →
    b.localAddr ≠ dst → b.linkSet ≠ [] → d.localAddr = dst →
    d.bufOf k = [] → d.cfg.bufCap = none →
    ∃ p, exec (.createPkt dst pl) a = .next { a with responses := a.responses ++ [.ok (.bytes p)] } ∧
      (∃ t, ∃ j ∈ b.linkSet, exec (.processPkt p) b = .next t ∧ t.outputs = b.outputs ++ [.linkSend j p]) ∧
      (∃ t, exec (.linkRx k p) d = .next t ∧ t.outputs = d.outputs ++ [.clientReceive pl] ∧ t.bufOf k = []) ∧
      ∃ l, decodeHeader a.cfg.addrOrder p = .ok ⟨l, a.localAddr, dst⟩

/-- Two nodes of different `ADDR_ORDER` do not interwork (R716, the spec's own derivation): the second reads both addresses
of a packet made by the first as their byte reversals, and delivers it exactly when the reversed destination is its own
address; the framing is the same for both, so the packet is extracted whole, its payload is as sent, and where it is not
delivered it is forwarded unchanged, or dropped where there is no link. -/
def Obligations.MixedByteOrdersMisread : Prop :=
  ∀ (a d : State) (dst : Addr) (pl : Bytes), a.cfg.addrOrder ≠ d.cfg.addrOrder → pl.length ≤ 255 →
    ∃ (p : Bytes) (src' dst' : Addr),
      exec (.createPkt dst pl) a = .next { a with responses := a.responses ++ [.ok (.bytes p)] } ∧
      PacketWellFormed p ∧
      encodeAddress a.cfg.addrOrder src' = (encodeAddress a.cfg.addrOrder a.localAddr).reverse ∧
      encodeAddress a.cfg.addrOrder dst' = (encodeAddress a.cfg.addrOrder dst).reverse ∧
      exec (.decPkt p) d = .next { d with responses := d.responses ++
        [.ok (.packet ⟨BitVec.ofNat 8 pl.length, src', dst'⟩ pl)] } ∧
      (∀ k, d.bufOf k = [] → (∀ c, d.cfg.bufCap = some c → p.length ≤ c) →
        ∃ t, execAll [.bufAppend k p, .tryExtract k] d = .next t ∧
          t.responses = d.responses ++ [.ok .done, .ok (.extracted (some p))] ∧ t.bufOf k = []) ∧
      (dst' = d.localAddr → exec (.processPkt p) d =
        .next { d with outputs := d.outputs ++ [.clientReceive pl], responses := d.responses ++ [.ok .delivered] }) ∧
      (dst' ≠ d.localAddr → d.linkSet = [] → exec (.processPkt p) d =
        .next { d with responses := d.responses ++ [.error .noLinksAvailable] }) ∧
      (dst' ≠ d.localAddr → d.linkSet ≠ [] → ∃ j ∈ d.linkSet, exec (.processPkt p) d =
        .next { drawn d with outputs := d.outputs ++ [.linkSend j p], responses := d.responses ++ [.ok (.forwarded j)] })
end

