-- ==== Sys2Proof/Laws/State.lean ====
section
/-! SUPPORT. One lemma per field per update of State, so that no later proof unfolds a record update. -/

namespace Sys2Proof.Machine

variable (s : State)

@[simp] theorem complete_eq (r : Result) : s.complete r = s.respond (.ok r) := rfl
@[simp] theorem raise_eq (e : CoreError) : s.raise e = s.respond (.error e) := rfl
@[simp] theorem finish_ok (r : Result) : s.finish (.ok r) = s.respond (.ok r) := rfl
@[simp] theorem finish_error (e : CoreError) : s.finish (.error e) = s.respond (.error e) := rfl
@[simp] theorem bufAppend_eq (k : LinkId) (bs : Bytes) : s.bufAppend k bs = s.setBuf k (s.bufOf k ++ bs) := rfl
@[simp] theorem bufRemoveHead_eq (k : LinkId) (n : Nat) : s.bufRemoveHead k n = s.setBuf k ((s.bufOf k).drop n) := rfl
@[simp] theorem bufClear_eq (k : LinkId) : s.bufClear k = s.setBuf k [] := rfl


@[simp] theorem setBuf_cfg (k : LinkId) (b : Bytes) : (s.setBuf k b).cfg = s.cfg := rfl
@[simp] theorem setBuf_localAddr (k : LinkId) (b : Bytes) : (s.setBuf k b).localAddr = s.localAddr := rfl
@[simp] theorem setBuf_linkSet (k : LinkId) (b : Bytes) : (s.setBuf k b).linkSet = s.linkSet := rfl
@[simp] theorem setBuf_buf (k : LinkId) (b : Bytes) : (s.setBuf k b).buf = memSet s.buf k b := rfl
@[simp] theorem setBuf_rand (k : LinkId) (b : Bytes) : (s.setBuf k b).rand = s.rand := rfl
@[simp] theorem setBuf_randCount (k : LinkId) (b : Bytes) : (s.setBuf k b).randCount = s.randCount := rfl
@[simp] theorem setBuf_inputs (k : LinkId) (b : Bytes) : (s.setBuf k b).inputs = s.inputs := rfl
@[simp] theorem setBuf_flows (k : LinkId) (b : Bytes) : (s.setBuf k b).flows = s.flows := rfl
@[simp] theorem setBuf_outputs (k : LinkId) (b : Bytes) : (s.setBuf k b).outputs = s.outputs := rfl
@[simp] theorem setBuf_responses (k : LinkId) (b : Bytes) : (s.setBuf k b).responses = s.responses := rfl

@[simp] theorem emit_cfg (o : Output) : (s.emit o).cfg = s.cfg := rfl
@[simp] theorem emit_localAddr (o : Output) : (s.emit o).localAddr = s.localAddr := rfl
@[simp] theorem emit_linkSet (o : Output) : (s.emit o).linkSet = s.linkSet := rfl
@[simp] theorem emit_buf (o : Output) : (s.emit o).buf = s.buf := rfl
@[simp] theorem emit_rand (o : Output) : (s.emit o).rand = s.rand := rfl
@[simp] theorem emit_randCount (o : Output) : (s.emit o).randCount = s.randCount := rfl
@[simp] theorem emit_inputs (o : Output) : (s.emit o).inputs = s.inputs := rfl
@[simp] theorem emit_flows (o : Output) : (s.emit o).flows = s.flows := rfl
@[simp] theorem emit_outputs (o : Output) : (s.emit o).outputs = s.outputs ++ [o] := rfl
@[simp] theorem emit_responses (o : Output) : (s.emit o).responses = s.responses := rfl

@[simp] theorem respond_cfg (r : Response) : (s.respond r).cfg = s.cfg := rfl
@[simp] theorem respond_localAddr (r : Response) : (s.respond r).localAddr = s.localAddr := rfl
@[simp] theorem respond_linkSet (r : Response) : (s.respond r).linkSet = s.linkSet := rfl
@[simp] theorem respond_buf (r : Response) : (s.respond r).buf = s.buf := rfl
@[simp] theorem respond_rand (r : Response) : (s.respond r).rand = s.rand := rfl
@[simp] theorem respond_randCount (r : Response) : (s.respond r).randCount = s.randCount := rfl
@[simp] theorem respond_inputs (r : Response) : (s.respond r).inputs = s.inputs := rfl
@[simp] theorem respond_flows (r : Response) : (s.respond r).flows = s.flows := rfl
@[simp] theorem respond_outputs (r : Response) : (s.respond r).outputs = s.outputs := rfl
@[simp] theorem respond_responses (r : Response) : (s.respond r).responses = s.responses ++ [r] := rfl

@[simp] theorem coreReset_cfg : s.coreReset.cfg = s.cfg := rfl
@[simp] theorem coreReset_localAddr : s.coreReset.localAddr = s.localAddr := rfl
@[simp] theorem coreReset_linkSet : s.coreReset.linkSet = s.linkSet := rfl
@[simp] theorem coreReset_buf : s.coreReset.buf = [] := rfl
@[simp] theorem coreReset_rand : s.coreReset.rand = s.rand := rfl
@[simp] theorem coreReset_randCount : s.coreReset.randCount = s.randCount := rfl
@[simp] theorem coreReset_inputs : s.coreReset.inputs = s.inputs := rfl
@[simp] theorem coreReset_flows : s.coreReset.flows = s.flows := rfl
@[simp] theorem coreReset_outputs : s.coreReset.outputs = s.outputs := rfl
@[simp] theorem coreReset_responses : s.coreReset.responses = s.responses := rfl

@[simp] theorem setLinkSet_cfg (ks : List LinkId) : (s.setLinkSet ks).cfg = s.cfg := rfl
@[simp] theorem setLinkSet_localAddr (ks : List LinkId) : (s.setLinkSet ks).localAddr = s.localAddr := rfl
@[simp] theorem setLinkSet_linkSet (ks : List LinkId) : (s.setLinkSet ks).linkSet = canonLinks ks := rfl
@[simp] theorem setLinkSet_buf (ks : List LinkId) : (s.setLinkSet ks).buf = s.buf := rfl
@[simp] theorem setLinkSet_rand (ks : List LinkId) : (s.setLinkSet ks).rand = s.rand := rfl
@[simp] theorem setLinkSet_randCount (ks : List LinkId) : (s.setLinkSet ks).randCount = s.randCount := rfl
@[simp] theorem setLinkSet_inputs (ks : List LinkId) : (s.setLinkSet ks).inputs = s.inputs := rfl
@[simp] theorem setLinkSet_flows (ks : List LinkId) : (s.setLinkSet ks).flows = s.flows := rfl
@[simp] theorem setLinkSet_outputs (ks : List LinkId) : (s.setLinkSet ks).outputs = s.outputs := rfl
@[simp] theorem setLinkSet_responses (ks : List LinkId) : (s.setLinkSet ks).responses = s.responses := rfl

@[simp] theorem updateFlow_cfg (f : RxFlow) : (s.updateFlow f).cfg = s.cfg := rfl
@[simp] theorem updateFlow_localAddr (f : RxFlow) : (s.updateFlow f).localAddr = s.localAddr := rfl
@[simp] theorem updateFlow_linkSet (f : RxFlow) : (s.updateFlow f).linkSet = s.linkSet := rfl
@[simp] theorem updateFlow_buf (f : RxFlow) : (s.updateFlow f).buf = s.buf := rfl
@[simp] theorem updateFlow_rand (f : RxFlow) : (s.updateFlow f).rand = s.rand := rfl
@[simp] theorem updateFlow_randCount (f : RxFlow) : (s.updateFlow f).randCount = s.randCount := rfl
@[simp] theorem updateFlow_inputs (f : RxFlow) : (s.updateFlow f).inputs = s.inputs := rfl
@[simp] theorem updateFlow_flows (f : RxFlow) : (s.updateFlow f).flows = s.flows.map (fun g => if g.link = f.link then f else g) := rfl
@[simp] theorem updateFlow_outputs (f : RxFlow) : (s.updateFlow f).outputs = s.outputs := rfl
@[simp] theorem updateFlow_responses (f : RxFlow) : (s.updateFlow f).responses = s.responses := rfl

@[simp] theorem endFlow_cfg (k : LinkId) (os : List PktOutcome) : (s.endFlow k os).cfg = s.cfg := rfl
@[simp] theorem endFlow_localAddr (k : LinkId) (os : List PktOutcome) : (s.endFlow k os).localAddr = s.localAddr := rfl
@[simp] theorem endFlow_linkSet (k : LinkId) (os : List PktOutcome) : (s.endFlow k os).linkSet = s.linkSet := rfl
@[simp] theorem endFlow_buf (k : LinkId) (os : List PktOutcome) : (s.endFlow k os).buf = s.buf := rfl
@[simp] theorem endFlow_rand (k : LinkId) (os : List PktOutcome) : (s.endFlow k os).rand = s.rand := rfl
@[simp] theorem endFlow_randCount (k : LinkId) (os : List PktOutcome) : (s.endFlow k os).randCount = s.randCount := rfl
@[simp] theorem endFlow_inputs (k : LinkId) (os : List PktOutcome) : (s.endFlow k os).inputs = s.inputs := rfl
@[simp] theorem endFlow_flows (k : LinkId) (os : List PktOutcome) : (s.endFlow k os).flows = s.flows.filter (fun g => g.link != k) := rfl
@[simp] theorem endFlow_outputs (k : LinkId) (os : List PktOutcome) : (s.endFlow k os).outputs = s.outputs := rfl
@[simp] theorem endFlow_responses (k : LinkId) (os : List PktOutcome) : (s.endFlow k os).responses = s.responses ++ [.ok (.outcomes k os)] := rfl

@[simp] theorem rxBegin_cfg (k : LinkId) (bs : Bytes) : (s.rxBegin k bs).cfg = s.cfg := rfl
@[simp] theorem rxBegin_localAddr (k : LinkId) (bs : Bytes) : (s.rxBegin k bs).localAddr = s.localAddr := rfl
@[simp] theorem rxBegin_linkSet (k : LinkId) (bs : Bytes) : (s.rxBegin k bs).linkSet = s.linkSet := rfl
@[simp] theorem rxBegin_buf (k : LinkId) (bs : Bytes) : (s.rxBegin k bs).buf = memSet s.buf k (s.bufOf k ++ bs) := rfl
@[simp] theorem rxBegin_rand (k : LinkId) (bs : Bytes) : (s.rxBegin k bs).rand = s.rand := rfl
@[simp] theorem rxBegin_randCount (k : LinkId) (bs : Bytes) : (s.rxBegin k bs).randCount = s.randCount := rfl
@[simp] theorem rxBegin_inputs (k : LinkId) (bs : Bytes) : (s.rxBegin k bs).inputs = s.inputs := rfl
@[simp] theorem rxBegin_flows (k : LinkId) (bs : Bytes) : (s.rxBegin k bs).flows = s.flows ++ [⟨k, none, []⟩] := rfl
@[simp] theorem rxBegin_outputs (k : LinkId) (bs : Bytes) : (s.rxBegin k bs).outputs = s.outputs := rfl
@[simp] theorem rxBegin_responses (k : LinkId) (bs : Bytes) : (s.rxBegin k bs).responses = s.responses := rfl

@[simp] theorem draw_cfg (n : Nat) : (s.draw n).2.cfg = s.cfg := by unfold State.draw; split <;> rfl
@[simp] theorem draw_localAddr (n : Nat) : (s.draw n).2.localAddr = s.localAddr := by unfold State.draw; split <;> rfl
@[simp] theorem draw_linkSet (n : Nat) : (s.draw n).2.linkSet = s.linkSet := by unfold State.draw; split <;> rfl
@[simp] theorem draw_buf (n : Nat) : (s.draw n).2.buf = s.buf := by unfold State.draw; split <;> rfl
@[simp] theorem draw_inputs (n : Nat) : (s.draw n).2.inputs = s.inputs := by unfold State.draw; split <;> rfl
@[simp] theorem draw_flows (n : Nat) : (s.draw n).2.flows = s.flows := by unfold State.draw; split <;> rfl
@[simp] theorem draw_outputs (n : Nat) : (s.draw n).2.outputs = s.outputs := by unfold State.draw; split <;> rfl
@[simp] theorem draw_responses (n : Nat) : (s.draw n).2.responses = s.responses := by unfold State.draw; split <;> rfl

@[simp] theorem finish_cfg (r : Except CoreError Result) : (s.finish r).cfg = s.cfg := by cases r <;> rfl
@[simp] theorem finish_localAddr (r : Except CoreError Result) : (s.finish r).localAddr = s.localAddr := by cases r <;> rfl
@[simp] theorem finish_linkSet (r : Except CoreError Result) : (s.finish r).linkSet = s.linkSet := by cases r <;> rfl
@[simp] theorem finish_buf (r : Except CoreError Result) : (s.finish r).buf = s.buf := by cases r <;> rfl
@[simp] theorem finish_rand (r : Except CoreError Result) : (s.finish r).rand = s.rand := by cases r <;> rfl
@[simp] theorem finish_randCount (r : Except CoreError Result) : (s.finish r).randCount = s.randCount := by cases r <;> rfl
@[simp] theorem finish_inputs (r : Except CoreError Result) : (s.finish r).inputs = s.inputs := by cases r <;> rfl
@[simp] theorem finish_flows (r : Except CoreError Result) : (s.finish r).flows = s.flows := by cases r <;> rfl
@[simp] theorem finish_outputs (r : Except CoreError Result) : (s.finish r).outputs = s.outputs := by cases r <;> rfl

/-- Ending an operation adds one response. -/
theorem finish_responses (r : Except CoreError Result) :
    ∃ x, (s.finish r).responses = s.responses ++ [x] := by cases r <;> exact ⟨_, rfl⟩

end Sys2Proof.Machine
end

