-- ==== Sys2Proof/Laws/Codec.lean ====
section
/-! SUPPORT. Small lemmas of the codec and the framer: lengths, the short cases, and slices (R400 to R411). -/

namespace Sys2Proof.Machine

/-- The bytes of four bytes put side by side. -/
theorem bytes_of_append4 (b0 b1 b2 b3 : Byte) (w : BitVec 32) (hw : w = b0 ++ b1 ++ b2 ++ b3) :
    w.extractLsb' 24 8 = b0 ∧ w.extractLsb' 16 8 = b1 ∧ w.extractLsb' 8 8 = b2 ∧ w.extractLsb' 0 8 = b3 := by
  have hbit : ∀ i, w.getLsbD i = (b0 ++ b1 ++ b2 ++ b3).getLsbD i := fun i => by rw [hw]
  refine ⟨?_, ?_, ?_, ?_⟩ <;>
  · apply BitVec.eq_of_getLsbD_eq
    intro i hi
    rw [BitVec.getLsbD_extractLsb', hbit]
    simp only [BitVec.getLsbD_append]
    interval_cases i <;> simp

/-- A 32-bit number is its four bytes side by side. -/
theorem append4_of_bytes (w : BitVec 32) :
    (w.extractLsb' 24 8 ++ w.extractLsb' 16 8 ++ w.extractLsb' 8 8 ++ w.extractLsb' 0 8 : BitVec 32) = w := by
  apply BitVec.eq_of_getLsbD_eq
  intro i hi
  refine Eq.trans (BitVec.getLsbD_append ..) ?_
  simp only [BitVec.getLsbD_append, BitVec.getLsbD_extractLsb']
  interval_cases i <;> simp

/-- A 72-bit word is its length byte and its two fields side by side. -/
theorem append_fields_of_word (w : BitVec 72) :
    (w.extractLsb' 64 8 ++ w.extractLsb' 32 32 ++ w.extractLsb' 0 32 : BitVec 72) = w := by
  apply BitVec.eq_of_getLsbD_eq
  intro i hi
  refine Eq.trans (BitVec.getLsbD_append ..) ?_
  simp only [BitVec.getLsbD_append, BitVec.getLsbD_extractLsb']
  interval_cases i <;> simp

/-- The length byte and the two fields of a word put together from them. -/
theorem fields_of_append (l : Byte) (s d : BitVec 32) (w : BitVec 72) (hw : w = l ++ s ++ d) :
    w.extractLsb' 64 8 = l ∧ w.extractLsb' 32 32 = s ∧ w.extractLsb' 0 32 = d := by
  have hbit : ∀ i, w.getLsbD i = (l ++ s ++ d).getLsbD i := fun i => by rw [hw]
  refine ⟨?_, ?_, ?_⟩ <;>
  · apply BitVec.eq_of_getLsbD_eq
    intro i hi
    rw [BitVec.getLsbD_extractLsb', hbit]
    simp only [BitVec.getLsbD_append]
    interval_cases i <;> simp

@[simp] theorem addrToBytes_length (o : AddrOrder) (a : Addr) : (addrToBytes o a).length = 4 := by cases o <;> rfl

@[simp] theorem encodeAddress_length (o : AddrOrder) (a : Addr) : (encodeAddress o a).length = 4 :=
  addrToBytes_length o a

@[simp] theorem encodeHeader_length (o : AddrOrder) (l : Byte) (s d : Addr) : (encodeHeader o l s d).length = 9 := by
  simp [encodeHeader]

@[simp] theorem encodeHeader_head (o : AddrOrder) (l : Byte) (s d : Addr) : (encodeHeader o l s d).headD 0 = l := rfl

/-- The length of a slice that lies inside its sequence (R12). -/
theorem slice_length {bs : Bytes} {i j : Nat} (hij : i ≤ j) (hj : j ≤ bs.length) : (slice bs i j).length = j - i := by
  simp only [slice, List.length_take, List.length_drop]; omega

@[simp] theorem slice_to_end (bs : Bytes) (i : Nat) : slice bs i bs.length = bs.drop i := by
  simp [slice]

@[simp] theorem slice_from_head (bs : Bytes) (n : Nat) : slice bs 0 n = bs.take n := by simp [slice]

/-- `decodeAddress` fails exactly below four bytes (R401). -/
theorem decodeAddress_short (o : AddrOrder) {bs : Bytes} (h : bs.length < 4) :
    decodeAddress o bs = .error (.malformedHeader 4 bs.length) := by
  match bs, h with
  | [], _ => rfl
  | [_], _ => rfl
  | [_, _], _ => rfl
  | [_, _, _], _ => rfl
  | _ :: _ :: _ :: _ :: _, h => simp at h; omega

/-- `decodeAddress` answers from the first four bytes alone (R401, D6). -/
theorem decodeAddress_long (o : AddrOrder) {bs : Bytes} (h : 4 ≤ bs.length) :
    decodeAddress o bs =
      .ok (addrOfBytes o (bs.getD 0 0) (bs.getD 1 0) (bs.getD 2 0) (bs.getD 3 0)) := by
  match bs, h with
  | _ :: _ :: _ :: _ :: _, _ => rfl
  | [_, _, _], h => simp at h
  | [_, _], h => simp at h
  | [_], h => simp at h
  | [], h => simp at h

/-- The address field at offset `i` of a sequence that holds it (R302). -/
theorem decodeAddress_slice (o : AddrOrder) {bs : Bytes} {i : Nat} (h : i + 4 ≤ bs.length) :
    decodeAddress o (slice bs i (i + 4)) =
      .ok (addrOfBytes o (bs.getD i 0) (bs.getD (i + 1) 0) (bs.getD (i + 2) 0) (bs.getD (i + 3) 0)) := by
  have hl : (slice bs i (i + 4)).length = 4 := by rw [slice_length] <;> omega
  rw [decodeAddress_long o (by omega)]
  simp [slice]

/-- `decodeHeader` fails exactly below nine bytes (R403). -/
theorem decodeHeader_short (o : AddrOrder) {bs : Bytes} (h : bs.length < 9) :
    decodeHeader o bs = .error (.malformedHeader 9 bs.length) := by
  simp [decodeHeader, h]

/-- `decodeHeader` answers from the first nine bytes (R403). -/
theorem decodeHeader_long (o : AddrOrder) {bs : Bytes} (h : 9 ≤ bs.length) :
    decodeHeader o bs = .ok ⟨bs.headD 0,
      addrOfBytes o (bs.getD 1 0) (bs.getD 2 0) (bs.getD 3 0) (bs.getD 4 0),
      addrOfBytes o (bs.getD 5 0) (bs.getD 6 0) (bs.getD 7 0) (bs.getD 8 0)⟩ := by
  have h1 := decodeAddress_slice o (bs := bs) (i := 1) (by omega)
  have h5 := decodeAddress_slice o (bs := bs) (i := 5) (by omega)
  have : ¬ bs.length < 9 := by omega
  simp only [decodeHeader, headerSize, this, if_false] at *
  rw [h1, h5]

/-- `createPacket` refuses exactly the payloads above 255 bytes, and otherwise answers header and payload (R410). -/
theorem createPacket_cases (o : AddrOrder) (src dst : Addr) (pl : Bytes) :
    (255 < pl.length ∧ createPacket o src dst pl = .error (.payloadTooLarge pl.length)) ∨
    (pl.length ≤ 255 ∧
      createPacket o src dst pl = .ok (encodeHeader o (BitVec.ofNat 8 pl.length) src dst ++ pl)) := by
  unfold createPacket
  split
  · next h => exact .inl ⟨h, rfl⟩
  · next h => exact .inr ⟨by simpa using h, rfl⟩

end Sys2Proof.Machine
end

