-- ==== Sys2Proof/Laws/Memory.lean ====
section
/-! SUPPORT. The receive buffers: a read after a write, independence of links, and the canonical form kept by every
operation on them (R201, R222). -/

namespace Sys2Proof.Machine

theorem memGet_filter_same (m : Memory) (k : LinkId) : memGet (m.filter (fun c => c.1 != k)) k = [] := by
  induction m with
  | nil => rfl
  | cons c m ih =>
    obtain ⟨j, b⟩ := c
    by_cases h : j = k <;> simp [h, memGet, ih]

theorem memGet_filter_ne (m : Memory) {j k : LinkId} (h : j ≠ k) :
    memGet (m.filter (fun c => c.1 != k)) j = memGet m j := by
  induction m with
  | nil => rfl
  | cons c m ih =>
    obtain ⟨l, b⟩ := c
    by_cases hl : l = k
    · subst hl; simp [memGet, ih, Ne.symm h]
    · by_cases hj : l = j
      · subst hj; simp [hl, memGet]
      · simp [hl, memGet, hj, ih]

theorem memGet_memInsert_same (m : Memory) (k : LinkId) (b : Bytes) (h : ∀ c ∈ m, c.1 ≠ k) :
    memGet (memInsert m k b) k = b := by
  induction m with
  | nil => simp [memInsert, memGet]
  | cons c m ih =>
    obtain ⟨j, d⟩ := c
    have hj : j ≠ k := h (j, d) (by simp)
    by_cases hk : k < j
    · simp [memInsert, hk, memGet]
    · simp [memInsert, hk, memGet, hj, ih fun c hc => h c (by simp [hc])]

theorem memGet_memInsert_ne (m : Memory) {j k : LinkId} (b : Bytes) (h : j ≠ k) :
    memGet (memInsert m k b) j = memGet m j := by
  induction m with
  | nil => simp [memInsert, memGet, Ne.symm h]
  | cons c m ih =>
    obtain ⟨l, d⟩ := c
    by_cases hk : k < l
    · simp [memInsert, hk, memGet, Ne.symm h]
    · by_cases hl : l = j
      · subst hl; simp [memInsert, hk, memGet]
      · simp [memInsert, hk, memGet, hl, ih]

theorem mem_filter_link (m : Memory) (k : LinkId) : ∀ c ∈ m.filter (fun c => c.1 != k), c.1 ≠ k := by
  intro c hc; simpa using (List.mem_filter.1 hc).2

/-- A read after a write on the same link. -/
@[simp] theorem memGet_memSet_same (m : Memory) (k : LinkId) (b : Bytes) : memGet (memSet m k b) k = b := by
  unfold memSet
  split
  · next h => rw [memGet_filter_same, h]
  · exact memGet_memInsert_same _ _ _ (mem_filter_link m k)

/-- A write leaves every other link alone (R222). -/
@[simp] theorem memGet_memSet_ne (m : Memory) {j k : LinkId} (b : Bytes) (h : j ≠ k) :
    memGet (memSet m k b) j = memGet m j := by
  unfold memSet
  split
  · exact memGet_filter_ne m h
  · rw [memGet_memInsert_ne _ _ h, memGet_filter_ne m h]

theorem mem_memInsert {m : Memory} {k : LinkId} {b : Bytes} {c : LinkId × Bytes} :
    c ∈ memInsert m k b ↔ c = (k, b) ∨ c ∈ m := by
  induction m with
  | nil => simp [memInsert]
  | cons d m ih =>
    obtain ⟨j, e⟩ := d
    by_cases hk : k < j <;> simp [memInsert, hk, ih, or_left_comm]

theorem memInsert_rising {m : Memory} {k : LinkId} {b : Bytes} (hm : m.Pairwise (fun a b => a.1 < b.1))
    (hk : ∀ c ∈ m, c.1 ≠ k) : (memInsert m k b).Pairwise (fun a b => a.1 < b.1) := by
  induction m with
  | nil => simp [memInsert]
  | cons d m ih =>
    obtain ⟨j, e⟩ := d
    rw [List.pairwise_cons] at hm
    have hj : j ≠ k := hk (j, e) (by simp)
    by_cases h : k < j
    · simp only [memInsert, h, if_true, List.pairwise_cons]
      refine ⟨?_, hm⟩
      rintro c hc
      rcases List.mem_cons.1 hc with rfl | hc
      · exact h
      · exact lt_trans h (hm.1 c hc)
    · simp only [memInsert, h, if_false, List.pairwise_cons]
      refine ⟨?_, ih hm.2 fun c hc => hk c (by simp [hc])⟩
      rintro c hc
      rcases mem_memInsert.1 hc with rfl | hc
      · exact lt_of_le_of_ne (not_lt.1 h) hj
      · exact hm.1 c hc

/-- A write keeps the canonical form. -/
theorem memSet_wf {m : Memory} (k : LinkId) (b : Bytes) (h : m.wf) : (memSet m k b).wf := by
  have hf : (m.filter (fun c => c.1 != k)).Pairwise (fun a b => a.1 < b.1) := h.1.filter _
  have hne : ∀ c ∈ m.filter (fun c => c.1 != k), c.2 ≠ [] := fun c hc => h.2 c (List.mem_filter.1 hc).1
  unfold memSet
  split
  · exact ⟨hf, hne⟩
  · next hb =>
    refine ⟨memInsert_rising hf (mem_filter_link m k), fun c hc => ?_⟩
    rcases mem_memInsert.1 hc with rfl | hc
    · exact hb
    · exact hne c hc

theorem filter_memInsert (m : Memory) (k : LinkId) (b : Bytes) (h : ∀ c ∈ m, c.1 ≠ k) :
    (memInsert m k b).filter (fun c => c.1 != k) = m := by
  induction m with
  | nil => simp [memInsert]
  | cons d m ih =>
    obtain ⟨j, e⟩ := d
    have hj : j ≠ k := h (j, e) (by simp)
    have hm : m.filter (fun c => c.1 != k) = m :=
      List.filter_eq_self.2 fun c hc => by simpa using h c (by simp [hc])
    by_cases hk : k < j
    · simp [memInsert, hk, hj, hm]
    · simp [memInsert, hk, hj, ih fun c hc => h c (by simp [hc])]

/-- A later write on the same link replaces an earlier one. -/
@[simp] theorem memSet_memSet (m : Memory) (k : LinkId) (a b : Bytes) : memSet (memSet m k a) k b = memSet m k b := by
  have h : (memSet m k a).filter (fun c => c.1 != k) = m.filter (fun c => c.1 != k) := by
    unfold memSet
    split
    · exact List.filter_eq_self.2 fun c hc => by simpa using mem_filter_link m k c hc
    · exact filter_memInsert _ _ _ (mem_filter_link m k)
  simp only [memSet] at h ⊢
  rw [h]

theorem memGet_ne_nil_of_mem {m : Memory} (hm : m.Pairwise (fun a b => a.1 < b.1)) {c : LinkId × Bytes}
    (hc : c ∈ m) : memGet m c.1 = c.2 := by
  induction m with
  | nil => simp at hc
  | cons d m ih =>
    obtain ⟨j, e⟩ := d
    rw [List.pairwise_cons] at hm
    rcases List.mem_cons.1 hc with rfl | hc
    · simp [memGet]
    · have : j ≠ c.1 := ne_of_lt (hm.1 c hc)
      simp [memGet, this, ih hm.2 hc]

/-- Clearing a buffer that reads as empty changes nothing, in canonical form. -/
theorem memSet_nil_of_get_nil {m : Memory} (h : m.wf) {k : LinkId} (hk : memGet m k = []) : memSet m k [] = m := by
  simp only [memSet, if_true]
  refine List.filter_eq_self.2 fun c hc => ?_
  have := memGet_ne_nil_of_mem h.1 hc
  have hne := h.2 c hc
  simp only [bne_iff_ne, ne_eq]
  rintro rfl
  exact hne (this ▸ hk)

variable (s : State)

@[simp] theorem bufOf_setBuf_same (k : LinkId) (b : Bytes) : (s.setBuf k b).bufOf k = b := by
  simp [State.bufOf]

@[simp] theorem bufOf_setBuf_ne {j k : LinkId} (b : Bytes) (h : j ≠ k) : (s.setBuf k b).bufOf j = s.bufOf j := by
  simp [State.bufOf, h]

@[simp] theorem bufOf_respond (r : Response) (k : LinkId) : (s.respond r).bufOf k = s.bufOf k := rfl

@[simp] theorem bufOf_emit (o : Output) (k : LinkId) : (s.emit o).bufOf k = s.bufOf k := rfl

@[simp] theorem bufOf_coreReset (k : LinkId) : s.coreReset.bufOf k = [] := rfl

@[simp] theorem setBuf_setBuf (k : LinkId) (a b : Bytes) : (s.setBuf k a).setBuf k b = s.setBuf k b := by
  simp [State.setBuf]

/-- Every operation on the buffers keeps their canonical form. -/
theorem buf_ops_keep_wf (k : LinkId) (bs : Bytes) (n : Nat) (h : s.buf.wf) :
    (s.bufAppend k bs).buf.wf ∧ (s.bufRemoveHead k n).buf.wf ∧ (s.bufClear k).buf.wf ∧ s.coreReset.buf.wf :=
  ⟨memSet_wf _ _ h, memSet_wf _ _ h, memSet_wf k [] h, by simp [Memory.wf]⟩

/-- The buffers right after reset are in canonical form. -/
theorem reset_buf_wf : State.reset.buf.wf := by simp [State.reset, Memory.wf]

end Sys2Proof.Machine
end

