-- ==== Sys2Proof/Laws/Ops.lean ====
section
/-! SUPPORT. One lemma per shared operation that says once everything it can do, and its frame. -/

namespace Sys2Proof.Machine

variable (s : State)

/-- The declared payload length at the head of `buf[k]` (R421). -/
theorem bufPeek_head (k : LinkId) : (s.bufPeek k 0 1).headD 0 = (s.bufOf k).headD 0 := by
  unfold State.bufPeek; cases s.bufOf k <;> simp [slice]

/-- What an extraction attempt can do (R421). -/
theorem tryExtract_cases (k : LinkId) :
    (((s.bufOf k).length < 9 ∨ (s.bufOf k).length < 9 + ((s.bufOf k).headD 0).toNat) ∧ s.tryExtract k = (none, s)) ∨
    (9 + ((s.bufOf k).headD 0).toNat ≤ (s.bufOf k).length ∧
      s.tryExtract k = (some ((s.bufOf k).take (9 + ((s.bufOf k).headD 0).toNat)),
        s.setBuf k ((s.bufOf k).drop (9 + ((s.bufOf k).headD 0).toNat)))) := by
  simp only [State.tryExtract, bufPeek_head, State.bufLen, headerSize, bufRemoveHead_eq]
  by_cases h1 : (s.bufOf k).length < 9
  · exact .inl ⟨.inl h1, by simp [h1]⟩
  · by_cases h2 : (s.bufOf k).length < 9 + ((s.bufOf k).headD 0).toNat
    · exact .inl ⟨.inr h2, by rw [if_neg h1, if_pos h2]⟩
    · exact .inr ⟨by omega, by rw [if_neg h1, if_neg h2]; simp [State.bufPeek]⟩

/-- Where no complete packet stands at the head, an attempt changes nothing (R421). -/
theorem tryExtract_none {k : LinkId}
    (h : (s.bufOf k).length < 9 ∨ (s.bufOf k).length < 9 + ((s.bufOf k).headD 0).toNat) :
    s.tryExtract k = (none, s) := by
  rcases tryExtract_cases s k with ⟨_, h'⟩ | ⟨h', _⟩
  · exact h'
  · omega

/-- A complete packet at the head is taken off (R421). -/
theorem tryExtract_some {k : LinkId} (h : 9 + ((s.bufOf k).headD 0).toNat ≤ (s.bufOf k).length) :
    s.tryExtract k = (some ((s.bufOf k).take (9 + ((s.bufOf k).headD 0).toNat)),
      s.setBuf k ((s.bufOf k).drop (9 + ((s.bufOf k).headD 0).toNat))) := by
  rcases tryExtract_cases s k with ⟨_, h'⟩ | ⟨_, h'⟩
  · omega
  · exact h'

/-- The first `9 + L` bytes of a sequence whose first byte is `L` are a well-formed packet (R303). -/
theorem take_wellFormed {b : Bytes} (h : 9 + (b.headD 0).toNat ≤ b.length) :
    PacketWellFormed (b.take (9 + (b.headD 0).toNat)) := by
  have hl : (b.take (9 + (b.headD 0).toNat)).length = 9 + (b.headD 0).toNat := by
    rw [List.length_take]; omega
  refine ⟨by rw [hl]; simp, ?_⟩
  rw [hl]
  cases b with
  | nil => simp at h
  | cons x b => simp [Nat.add_comm 9]

/-- A draw is in its range (R107). -/
theorem draw_lt {n : Nat} (h : 0 < n) : (s.draw n).1 < n := by
  unfold State.draw; split <;> exact Nat.mod_lt _ h

/-- A legal sample that is ready is the draw (R107, R116). -/
theorem draw_of_sample {n r : Nat} {rs : List Nat} (h : r < n) :
    ({ s with rand := r :: rs }).draw n = (r, { s with rand := rs }) := by
  simp [State.draw, Nat.mod_eq_of_lt h]

/-- The state after a draw (R107, R116). -/
theorem draw_snd (n : Nat) : (s.draw n).2 = drawn s := by
  unfold State.draw; rcases s with ⟨_, _, _, _, _ | _, _, _, _, _, _⟩ <;> rfl

/-- The snapshot has exactly the members of the link set (R430). -/
@[simp] theorem mem_snapshotOf (first links : List LinkId) (k : LinkId) : k ∈ snapshotOf first links ↔ k ∈ links := by
  simp only [snapshotOf, List.mem_append, List.mem_filter, List.mem_dedup, decide_eq_true_eq]
  tauto

@[simp] theorem mem_snapshot (k : LinkId) : k ∈ s.snapshot ↔ k ∈ s.linkSet := mem_snapshotOf _ _ _

@[simp] theorem snapshot_eq_nil : s.snapshot = [] ↔ s.linkSet = [] := by
  simp [List.eq_nil_iff_forall_not_mem]

/-- In ascending order the snapshot is the link set as State lists it (D4). -/
theorem snapshot_ascending (h : s.cfg.snapshotFirst = []) : s.snapshot = s.linkSet := by
  simp [State.snapshot, snapshotOf, h]

/-- What `route` can do (R430). -/
theorem route_cases :
    (s.linkSet = [] ∧ s.route = (.error .noLinksAvailable, s)) ∨
    (∃ k ∈ s.linkSet, s.route = (.ok k, (s.draw s.snapshot.length).2)) := by
  unfold State.route
  split
  · next h => exact .inl ⟨(snapshot_eq_nil s).1 h, rfl⟩
  · next k0 ks h =>
    refine .inr ⟨_, ?_, by rw [h]⟩
    have hlt := draw_lt s (n := (k0 :: ks).length) (by simp)
    rw [← mem_snapshot, h, List.getD_eq_getElem _ _ hlt]
    exact List.getElem_mem hlt

/-- With a legal sample ready, `route` answers the snapshot's member at that index (R430). -/
theorem route_of_sample {r : Nat} {rs : List Nat} {k : LinkId} (h : s.snapshot[r]? = some k) :
    ({ s with rand := r :: rs }).route = (.ok k, { s with rand := rs }) := by
  have hs : ({ s with rand := r :: rs } : State).snapshot = s.snapshot := rfl
  obtain ⟨hr, rfl⟩ := List.getElem?_eq_some_iff.1 h
  unfold State.route
  rw [hs]
  generalize s.snapshot = l at hr
  cases l with
  | nil => simp at hr
  | cons k0 ks =>
    simp only [draw_of_sample s hr]
    rw [List.getD_eq_getElem _ _ hr]

/-- What routing and sending in one step can do (R440). -/
theorem sendRouted_cases (bs : Bytes) :
    (s.linkSet = [] ∧ s.sendRouted bs = (.error .noLinksAvailable, s)) ∨
    (∃ k ∈ s.linkSet, s.sendRouted bs = (.ok k, ((s.draw s.snapshot.length).2).emit (.linkSend k bs))) := by
  unfold State.sendRouted
  rcases route_cases s with ⟨h, hr⟩ | ⟨k, hk, hr⟩
  · exact .inl ⟨h, by rw [hr]⟩
  · exact .inr ⟨k, hk, by rw [hr]⟩

/-- What processing a packet can do (R431, R442). -/
theorem processPacket_cases (p : Bytes) :
    (p.length < 9 ∧ s.processPacket p = (.dropped (.malformedHeader 9 p.length), s)) ∨
    (9 ≤ p.length ∧ destinationOf s.cfg.addrOrder p = s.localAddr ∧
      s.processPacket p = (.delivered, s.emit (.clientReceive (p.drop 9)))) ∨
    (9 ≤ p.length ∧ destinationOf s.cfg.addrOrder p ≠ s.localAddr ∧ s.linkSet = [] ∧
      s.processPacket p = (.dropped .noLinksAvailable, s)) ∨
    (9 ≤ p.length ∧ destinationOf s.cfg.addrOrder p ≠ s.localAddr ∧
      ∃ k ∈ s.linkSet, s.processPacket p =
        (.forwarded k, ((s.draw s.snapshot.length).2).emit (.linkSend k p))) := by
  unfold State.processPacket
  by_cases h : p.length < 9
  · exact .inl ⟨h, by simp [h]⟩
  · have h9 : 9 ≤ p.length := not_lt.1 h
    have hd := decodeAddress_slice s.cfg.addrOrder (bs := p) (i := 5) (by omega)
    simp only [headerSize, h, if_false, slice_to_end]
    rw [show (5 + 4 : Nat) = 9 from rfl] at hd
    rw [hd]
    by_cases hl : destinationOf s.cfg.addrOrder p = s.localAddr
    · exact .inr (.inl ⟨h9, hl, by simp only [destinationOf] at hl; simp only [hl, if_true]⟩)
    · rcases sendRouted_cases s p with ⟨he, hr⟩ | ⟨k, hk, hr⟩
      · exact .inr (.inr (.inl ⟨h9, hl, he, by
          simp only [destinationOf] at hl; simp only [hl, if_false]; rw [hr]⟩))
      · exact .inr (.inr (.inr ⟨h9, hl, k, hk, by
          simp only [destinationOf] at hl; simp only [hl, if_false]; rw [hr]⟩))

/-- What originating a packet can do (R455, R610). -/
theorem sendData_cases (dst : Addr) (pl : Bytes) :
    (255 < pl.length ∧ s.sendData dst pl = (.error (.payloadTooLarge pl.length), s)) ∨
    (pl.length ≤ 255 ∧ s.linkSet = [] ∧ s.sendData dst pl = (.error .noLinksAvailable, s)) ∨
    (pl.length ≤ 255 ∧ ∃ k ∈ s.linkSet, s.sendData dst pl =
      (.ok k, ((s.draw s.snapshot.length).2).emit (.linkSend k
        (encodeHeader s.cfg.addrOrder (BitVec.ofNat 8 pl.length) s.localAddr dst ++ pl)))) := by
  unfold State.sendData
  rcases createPacket_cases s.cfg.addrOrder s.localAddr dst pl with ⟨h, hc⟩ | ⟨h, hc⟩
  · exact .inl ⟨h, by rw [hc]⟩
  · simp only [hc]
    rcases sendRouted_cases s (encodeHeader s.cfg.addrOrder (BitVec.ofNat 8 pl.length) s.localAddr dst ++ pl) with
      ⟨he, hr⟩ | ⟨k, hk, hr⟩
    · exact .inr (.inl ⟨h, he, hr⟩)
    · exact .inr (.inr ⟨h, k, hk, hr⟩)

/-- What the shared operations leave unchanged: parameters, inputs, the events waiting and in progress, and the
responses. -/
structure SameFrame (s t : State) : Prop where
  cfg : t.cfg = s.cfg
  localAddr : t.localAddr = s.localAddr
  linkSet : t.linkSet = s.linkSet
  inputs : t.inputs = s.inputs
  flows : t.flows = s.flows
  responses : t.responses = s.responses

theorem SameFrame.refl : SameFrame s s := ⟨rfl, rfl, rfl, rfl, rfl, rfl⟩

theorem SameFrame.trans {s t u : State} (h : SameFrame s t) (g : SameFrame t u) : SameFrame s u :=
  ⟨g.1.trans h.1, g.2.trans h.2, g.3.trans h.3, g.4.trans h.4, g.5.trans h.5, g.6.trans h.6⟩

theorem setBuf_frame (k : LinkId) (b : Bytes) : SameFrame s (s.setBuf k b) := ⟨rfl, rfl, rfl, rfl, rfl, rfl⟩

theorem draw_emit_frame (n : Nat) (o : Output) : SameFrame s ((s.draw n).2.emit o) := by
  constructor <;> simp

theorem tryExtract_frame (k : LinkId) : SameFrame s (s.tryExtract k).2 := by
  rcases tryExtract_cases s k with ⟨_, h⟩ | ⟨_, h⟩ <;> rw [h]
  · exact .refl s
  · exact setBuf_frame s _ _

/-- Processing a packet touches no buffer and nothing of the frame (R431). -/
theorem processPacket_frame (p : Bytes) :
    SameFrame s (s.processPacket p).2 ∧ (s.processPacket p).2.buf = s.buf := by
  rcases processPacket_cases s p with ⟨_, h⟩ | ⟨_, _, h⟩ | ⟨_, _, _, h⟩ | ⟨_, _, k, _, h⟩ <;> rw [h]
  · exact ⟨.refl s, rfl⟩
  · exact ⟨⟨rfl, rfl, rfl, rfl, rfl, rfl⟩, rfl⟩
  · exact ⟨.refl s, rfl⟩
  · exact ⟨draw_emit_frame s _ _, by simp⟩

/-- What one turn of the loop of a link-read event can do (R450). -/
theorem rxLoop_succ (k : LinkId) (n : Nat) :
    ((s.tryExtract k).1 = none ∧ s.rxLoop k (n + 1) = ([], s)) ∨
    (∃ p, (s.tryExtract k).1 = some p ∧
      let r := (s.tryExtract k).2.processPacket p
      s.rxLoop k (n + 1) =
        if s.cfg.rxDrain then (r.1 :: (r.2.rxLoop k n).1, (r.2.rxLoop k n).2) else ([r.1], r.2)) := by
  cases h : (s.tryExtract k).1 with
  | none => exact .inl ⟨rfl, by simp [State.rxLoop, h]⟩
  | some p => exact .inr ⟨p, rfl, by simp [State.rxLoop, h]⟩

/-- With no complete packet the loop of a link-read event does nothing (R450). -/
theorem rxLoop_none {k : LinkId} (n : Nat)
    (h : (s.bufOf k).length < 9 ∨ (s.bufOf k).length < 9 + ((s.bufOf k).headD 0).toNat) :
    s.rxLoop k n = ([], s) := by
  cases n with
  | zero => rfl
  | succ n => simp [State.rxLoop, tryExtract_none s h]

/-- With a complete packet the loop of a link-read event processes it, and goes on only with `RX_DRAIN` (R450). -/
theorem rxLoop_some {k : LinkId} (n : Nat) (h : 9 + ((s.bufOf k).headD 0).toNat ≤ (s.bufOf k).length) :
    s.rxLoop k (n + 1) =
      let r := (s.setBuf k ((s.bufOf k).drop (9 + ((s.bufOf k).headD 0).toNat))).processPacket
        ((s.bufOf k).take (9 + ((s.bufOf k).headD 0).toNat))
      if s.cfg.rxDrain then (r.1 :: (r.2.rxLoop k n).1, (r.2.rxLoop k n).2) else ([r.1], r.2) := by
  simp only [State.rxLoop, tryExtract_some s h]

/-- Any fuel above the number of bytes in the buffer gives the same loop (R450). -/
theorem rxLoop_fuel (k : LinkId) (n m : Nat) (h : (s.bufOf k).length < n) (hm : n ≤ m) :
    s.rxLoop k m = s.rxLoop k n := by
  induction n generalizing s m with
  | zero => omega
  | succ n ih =>
    obtain ⟨m, rfl⟩ : ∃ i, m = i + 1 := ⟨m - 1, by omega⟩
    by_cases hc : 9 + ((s.bufOf k).headD 0).toNat ≤ (s.bufOf k).length
    · rw [rxLoop_some s n hc, rxLoop_some s m hc]
      simp only
      rw [ih _ m ?_ (by omega)]
      rw [State.bufOf, (processPacket_frame _ _).2]
      simp only [setBuf_buf, memGet_memSet_same, List.length_drop]
      omega
    · rw [rxLoop_none s _ (by omega), rxLoop_none s _ (by omega)]

/-- The frame of the loop of a link-read event: only its own buffer, the outputs and the draws change (R450, R222). -/
theorem rxLoop_frame (k : LinkId) (n : Nat) :
    SameFrame s (s.rxLoop k n).2 ∧ ∀ j, j ≠ k → (s.rxLoop k n).2.bufOf j = s.bufOf j := by
  induction n generalizing s with
  | zero => exact ⟨.refl s, fun _ _ => rfl⟩
  | succ n ih =>
    rcases rxLoop_succ s k n with ⟨_, h⟩ | ⟨p, _, h⟩
    · rw [h]; exact ⟨.refl s, fun _ _ => rfl⟩
    · have ht := tryExtract_frame s k
      have hp := processPacket_frame (s.tryExtract k).2 p
      have hj : ∀ j, j ≠ k → ((s.tryExtract k).2.processPacket p).2.bufOf j = s.bufOf j := by
        intro j hj
        rw [State.bufOf, hp.2]
        rcases tryExtract_cases s k with ⟨_, he⟩ | ⟨_, he⟩ <;> rw [he] <;> simp [State.bufOf, hj]
      simp only at h
      rw [h]
      split
      · have hn := ih ((s.tryExtract k).2.processPacket p).2
        exact ⟨(ht.trans hp.1).trans hn.1, fun j hjk => (hn.2 j hjk).trans (hj j hjk)⟩
      · exact ⟨ht.trans hp.1, hj⟩

/-- The frame of a link-read event served without interruption (R450). -/
theorem linkRead_frame (k : LinkId) (bs : Bytes) :
    SameFrame s (s.linkRead k bs).2 ∧ ∀ j, j ≠ k → (s.linkRead k bs).2.bufOf j = s.bufOf j := by
  have h := rxLoop_frame (s.bufAppend k bs) k ((s.bufAppend k bs).bufLen k + 1)
  exact ⟨(setBuf_frame s k _).trans h.1, fun j hj => (h.2 j hj).trans (by simp [hj])⟩

/-- What a link-read event can do (R450, R420). -/
theorem receive_cases (k : LinkId) (bs : Bytes) :
    (s.hasRoom k bs.length = true ∧
      s.receive k bs = .next ((s.linkRead k bs).2.respond (.ok (.outcomes k (s.linkRead k bs).1)))) ∨
    (s.hasRoom k bs.length = false ∧ s.receive k bs = .fault (.appendNotEnabled k)) := by
  unfold State.receive
  cases h : s.hasRoom k bs.length
  · exact .inr ⟨rfl, by simp⟩
  · exact .inl ⟨rfl, by simp⟩

/-- When an append is enabled (R420). -/
theorem hasRoom_iff (k : LinkId) (n : Nat) :
    s.hasRoom k n = true ↔ ∀ c, s.cfg.bufCap = some c → (s.bufOf k).length + n ≤ c := by
  unfold State.hasRoom State.bufLen
  split <;> simp_all

/-- Setting the link set keeps exactly the given members (R103). -/
theorem mem_insertLink (k j : LinkId) (ks : List LinkId) : j ∈ insertLink k ks ↔ j = k ∨ j ∈ ks := by
  induction ks with
  | nil => simp [insertLink]
  | cons i ks ih =>
    unfold insertLink
    split
    · simp
    · split
      · next h => subst h; simp
      · simp [ih, or_left_comm]

theorem mem_canonLinks (j : LinkId) (ks : List LinkId) : j ∈ canonLinks ks ↔ j ∈ ks := by
  induction ks with
  | nil => simp [canonLinks]
  | cons i ks ih => rw [canonLinks, List.foldr_cons, mem_insertLink]; simp [← ih, canonLinks]

theorem insertLink_rising {k : LinkId} {ks : List LinkId} (h : ks.Pairwise (· < ·)) :
    (insertLink k ks).Pairwise (· < ·) := by
  induction ks with
  | nil => simp [insertLink]
  | cons i ks ih =>
    unfold insertLink
    rw [List.pairwise_cons] at h
    split
    · next hk =>
      refine List.pairwise_cons.2 ⟨fun j hj => ?_, List.pairwise_cons.2 h⟩
      rcases List.mem_cons.1 hj with rfl | hj
      · exact hk
      · exact lt_trans hk (h.1 j hj)
    · split
      · exact List.pairwise_cons.2 h
      · next h1 h2 =>
        refine List.pairwise_cons.2 ⟨fun j hj => ?_, ih h.2⟩
        rcases (mem_insertLink k j ks).1 hj with rfl | hj
        · exact lt_of_le_of_ne (not_lt.1 h1) (Ne.symm h2)
        · exact h.1 j hj

theorem canonLinks_rising (ks : List LinkId) : (canonLinks ks).Pairwise (· < ·) := by
  induction ks with
  | nil => simp [canonLinks]
  | cons i ks ih => exact insertLink_rising ih

end Sys2Proof.Machine
end

