-- ==== Sys2Proof/Laws/Events.lean ====
section
/-! SUPPORT. What serving an event can do: the events a step picks, the primitive steps of a link-read event in progress,
and the records of a run read piece by piece. -/

namespace Sys2Proof.Machine

variable (s : State)

/-- The event that a step serves is enabled, given the links on which an earlier append waits. -/
theorem pick_ready {w : List LinkId} {l rest : List Event} {e : Event} (h : s.pick w l = some (e, rest)) :
    ∃ w', s.eventReady w' e = true := by
  induction l generalizing w rest with
  | nil => simp [State.pick] at h
  | cons x xs ih =>
    unfold State.pick at h
    split at h
    · next hr =>
      simp only [Option.some.injEq, Prod.mk.injEq] at h
      exact ⟨w, h.1 ▸ hr⟩
    · split at h
      · simp at h
      · next e' es' he =>
        simp only [Option.some.injEq, Prod.mk.injEq] at h
        obtain ⟨rfl, _⟩ := h
        exact ih he

/-- The first event, where it is enabled, is the one a step serves. -/
theorem pick_head {e : Event} (rest : List Event) (h : s.eventReady [] e = true) :
    s.pick [] (e :: rest) = some (e, rest) := by
  simp [State.pick, h]

/-- A step serves the event it picks. -/
theorem step_of_pick {e : Event} {rest : List Event} (h : s.pick [] s.inputs = some (e, rest)) :
    step s = runEvent e { s with inputs := rest } := by
  simp only [step, serveNext, h]

/-- A link-read event in progress at an attempt that finds no packet ends (R450). -/
theorem rxAdvanceFlow_ends {f : RxFlow} (hp : f.pending = none)
    (h : (s.bufOf f.link).length < 9 ∨ (s.bufOf f.link).length < 9 + ((s.bufOf f.link).headD 0).toNat) :
    s.rxAdvanceFlow f = s.endFlow f.link f.outcomes := by
  simp only [State.rxAdvanceFlow, hp, tryExtract_none s h]

/-- A link-read event in progress at an attempt that finds a packet keeps it for processing (R450). -/
theorem rxAdvanceFlow_extracts {f : RxFlow} (hp : f.pending = none)
    (h : 9 + ((s.bufOf f.link).headD 0).toNat ≤ (s.bufOf f.link).length) :
    s.rxAdvanceFlow f =
      (s.setBuf f.link ((s.bufOf f.link).drop (9 + ((s.bufOf f.link).headD 0).toNat))).updateFlow
        { f with pending := some ((s.bufOf f.link).take (9 + ((s.bufOf f.link).headD 0).toNat)) } := by
  simp only [State.rxAdvanceFlow, hp, tryExtract_some s h]

/-- A link-read event in progress with a packet taken off processes it (R450). -/
theorem rxAdvanceFlow_processes {f : RxFlow} {p : Bytes} (hp : f.pending = some p) :
    s.rxAdvanceFlow f =
      if s.cfg.rxDrain then
        (s.processPacket p).2.updateFlow ⟨f.link, none, f.outcomes ++ [(s.processPacket p).1]⟩
      else (s.processPacket p).2.endFlow f.link (f.outcomes ++ [(s.processPacket p).1]) := by
  simp only [State.rxAdvanceFlow, hp]

/-- A primitive step of a link-read event writes no buffer but its own (R222). -/
theorem rxAdvanceFlow_bufOf_ne (f : RxFlow) {j : LinkId} (hj : j ≠ f.link) :
    (s.rxAdvanceFlow f).bufOf j = s.bufOf j := by
  cases hp : f.pending with
  | none =>
    by_cases h : 9 + ((s.bufOf f.link).headD 0).toNat ≤ (s.bufOf f.link).length
    · rw [rxAdvanceFlow_extracts s hp h]; exact bufOf_setBuf_ne s _ hj
    · rw [rxAdvanceFlow_ends s hp (by omega)]; rfl
  | some p =>
    have hb : (s.processPacket p).2.bufOf j = s.bufOf j := by
      rw [State.bufOf, (processPacket_frame s p).2]; rfl
    rw [rxAdvanceFlow_processes s hp]
    split <;> exact hb

theorem execAll_append (a b : List Instr) :
    execAll (a ++ b) s =
      match execAll a s with
      | .next t => execAll b t
      | .fault r => .fault r
      | .refused r => .refused r := by
  induction a generalizing s with
  | nil => rfl
  | cons i a ih =>
    simp only [List.cons_append, execAll]
    cases exec i s <;> simp [ih]

@[simp] theorem extractedPackets_append (a b : List Response) :
    extractedPackets (a ++ b) = extractedPackets a ++ extractedPackets b := by
  simp [extractedPackets]

@[simp] theorem receivedOutcomes_append (k : LinkId) (a b : List Response) :
    receivedOutcomes k (a ++ b) = receivedOutcomes k a ++ receivedOutcomes k b := by
  simp [receivedOutcomes]

@[simp] theorem receivedOutcomes_own (k : LinkId) (os : List PktOutcome) :
    receivedOutcomes k [.ok (.outcomes k os)] = os := by
  simp [receivedOutcomes]

end Sys2Proof.Machine
end

