-- ==== Sys2Proof/Laws/PerInstr.lean ====
section
/-! SUPPORT. Statements about every operation as syntax, one lemma per constructor. -/

namespace Sys2Proof.Laws.EncodePort

/-- The encoder presents an operation on port `cmd` with its own code and operands of the kinds R311 lists for it, or, for
the wire row, as a header word on port `link_rx` (R301, R311). -/
def Statement (i : Instr) : Prop :=
  ∀ o, (∃ c args, encode o i = .cmd (Opcode.bits c) args ∧ decodeArgs c args = .ok i) ∨
    (∃ k l s d, i = .pktHeader k l s d ∧ encode o i = .header k (headerWord o l s d))

theorem encAddr (a : Addr) : Statement (.encAddr a) := fun _ => .inl ⟨.encAddr, _, rfl, rfl⟩
theorem decAddr (bs : Bytes) : Statement (.decAddr bs) :=
  fun _ => .inl ⟨.decAddr, _, rfl, by simp [decodeArgs, bytesOperand, withBytes]⟩
theorem encHdr (l : Byte) (s d : Addr) : Statement (.encHdr l s d) := fun _ => .inl ⟨.encHdr, _, rfl, rfl⟩
theorem decHdr (bs : Bytes) : Statement (.decHdr bs) :=
  fun _ => .inl ⟨.decHdr, _, rfl, by simp [decodeArgs, bytesOperand, withBytes]⟩
theorem createPkt (d : Addr) (pl : Bytes) : Statement (.createPkt d pl) :=
  fun _ => .inl ⟨.createPkt, _, rfl, by simp [decodeArgs, bytesOperand, withBytes]⟩
theorem decPkt (p : Bytes) : Statement (.decPkt p) :=
  fun _ => .inl ⟨.decPkt, _, rfl, by simp [decodeArgs, bytesOperand, withBytes]⟩
theorem bufAppend (k : LinkId) (bs : Bytes) : Statement (.bufAppend k bs) :=
  fun _ => .inl ⟨.bufAppend, _, rfl, by simp [decodeArgs, bytesOperand, withBytes]⟩
theorem tryExtract (k : LinkId) : Statement (.tryExtract k) := fun _ => .inl ⟨.tryExtract, _, rfl, rfl⟩
theorem route (d : Addr) : Statement (.route d) := fun _ => .inl ⟨.route, _, rfl, rfl⟩
theorem processPkt (p : Bytes) : Statement (.processPkt p) :=
  fun _ => .inl ⟨.processPkt, _, rfl, by simp [decodeArgs, bytesOperand, withBytes]⟩
theorem linkRx (k : LinkId) (bs : Bytes) : Statement (.linkRx k bs) :=
  fun _ => .inl ⟨.linkRx, _, rfl, by simp [decodeArgs, bytesOperand, withBytes]⟩
theorem clientSend (d : Addr) (pl : Bytes) : Statement (.clientSend d pl) :=
  fun _ => .inl ⟨.clientSend, _, rfl, by simp [decodeArgs, bytesOperand, withBytes]⟩
theorem linkReset (k : LinkId) : Statement (.linkReset k) := fun _ => .inl ⟨.linkReset, _, rfl, rfl⟩
theorem pktHeader (k : LinkId) (l : Byte) (s d : Addr) : Statement (.pktHeader k l s d) :=
  fun _ => .inr ⟨k, l, s, d, rfl, rfl⟩

end Sys2Proof.Laws.EncodePort
end

