-- ==== Sys2Proof/Tests/Slice0.lean ====
section
/-! SUPPORT. The model's own tests. Expected values are those of spec/95_test_vectors.md (the vector is named at each
test), worked out there from the rules. -/

namespace Sys2Proof.Tests

open Sys2Proof.Machine

/-- A small node with address `a` and link set `ls`. -/
def node (a : Addr) (ls : List LinkId) : State := { State.reset with localAddr := a, linkSet := ls }

/-- The reference packets PA, PB, PD of spec/95_test_vectors.md, `ADDR_ORDER` BE. -/
def pa : Bytes := [0x02, 0x0A, 0x00, 0x00, 0x01, 0x0A, 0x00, 0x00, 0x02, 0x48, 0x69]
def pb : Bytes := [0x03, 0x0A, 0x00, 0x00, 0x03, 0x0A, 0x00, 0x00, 0x02, 0x41, 0x42, 0x43]
def pd : Bytes := [0x00, 0x0A, 0x00, 0x00, 0x01, 0x0A, 0x00, 0x00, 0x03]

/-- The next state of an outcome. -/
def after (o : Host.Outcome State Fault Refusal) : Option State :=
  match o with
  | .next s => some s
  | .fault _ => none
  | .refused _ => none

def respOf (o : Host.Outcome State Fault Refusal) : Option (List Response) := (after o).map State.responses
def outOf (o : Host.Outcome State Fault Refusal) : Option (List Output) := (after o).map State.outputs
def bufAfter (o : Host.Outcome State Fault Refusal) : Option Memory := (after o).map State.buf

/-! ### Well-formedness: an ill-formed term for each check -/

def narrow : Config := { Config.spec with linkIdW := some 4 }

theorem test_wf_link_fits : Instr.wf narrow (.tryExtract 15) = true := by decide
theorem test_wf_link_too_wide : Instr.wf narrow (.tryExtract 16) = false := by decide
theorem test_wf_unbounded : Instr.wf Config.spec (.tryExtract 70000) = true := by decide
theorem test_packet_wf : PacketWellFormed pa := by decide
theorem test_packet_short_is_ill_formed : ¬ PacketWellFormed (pd.take 8) := by decide
theorem test_packet_length_byte_disagrees : ¬ PacketWellFormed (0x03 :: pa.tail) := by decide

/-- A link identifier wider than `LINK_ID_W` cannot be presented: the step refuses it (log entry 14). -/
theorem test_step_refuses_wide_link :
    (match step { node 0 [] with cfg := narrow, inputs := [.transfer (.cmd 0x8 [.link 16])] } with
      | .refused (.linkIdTooWide k) => k == 16
      | _ => false) = true := by decide

/-! ### Decoding: a transfer of each operation, written out from R311, and the wire header of V40.21 -/

theorem test_decode_enc_addr : decode .be (.cmd 0x1 [.u32 0x12345678]) = .ok (.encAddr 0x12345678) := by rfl
theorem test_decode_dec_addr : decode .be (.cmd 0x2 [.bytes 2 [0x0A, 0x00]]) = .ok (.decAddr [0x0A, 0x00]) := by rfl
theorem test_decode_enc_hdr : decode .be (.cmd 0x3 [.u8 2, .u32 1, .u32 7]) = .ok (.encHdr 2 1 7) := by rfl
theorem test_decode_dec_hdr : decode .be (.cmd 0x4 [.bytes 1 [0x07]]) = .ok (.decHdr [0x07]) := by rfl
theorem test_decode_create_pkt :
    decode .be (.cmd 0x5 [.u32 9, .bytes 2 [0x48, 0x69]]) = .ok (.createPkt 9 [0x48, 0x69]) := by rfl
theorem test_decode_dec_pkt : decode .be (.cmd 0x6 [.bytes 1 [0xFF]]) = .ok (.decPkt [0xFF]) := by rfl
theorem test_decode_buf_append : decode .be (.cmd 0x7 [.link 3, .bytes 1 [0xFF]]) = .ok (.bufAppend 3 [0xFF]) := by rfl
theorem test_decode_try_extract : decode .be (.cmd 0x8 [.link 3]) = .ok (.tryExtract 3) := by rfl
theorem test_decode_route : decode .be (.cmd 0x9 [.u32 5]) = .ok (.route 5) := by rfl
theorem test_decode_process_pkt : decode .be (.cmd 0xA [.bytes 0 []]) = .ok (.processPkt []) := by rfl
theorem test_decode_link_rx : decode .be (.cmd 0xB [.link 1, .bytes 1 [0x02]]) = .ok (.linkRx 1 [0x02]) := by rfl
theorem test_decode_client_send : decode .be (.cmd 0xC [.u32 5, .bytes 0 []]) = .ok (.clientSend 5 []) := by rfl
theorem test_decode_link_reset : decode .be (.cmd 0xD [.link 2]) = .ok (.linkReset 2) := by rfl
theorem test_decode_header_be :
    decode .be (.header 1 0x020A0000010A000002#72) = .ok (.pktHeader 1 2 0x0A000001 0x0A000002) := by rfl
theorem test_decode_header_le :
    decode .le (.header 1 0x020100000A0200000A#72) = .ok (.pktHeader 1 2 0x0A000001 0x0A000002) := by rfl

theorem test_decode_reserved :
    decode .be (.cmd 0x0 []) = .error (.reservedOpcode 0x0) ∧ decode .be (.cmd 0xE []) = .error (.reservedOpcode 0xE) ∧
      decode .be (.cmd 0xF []) = .error (.reservedOpcode 0xF) := ⟨rfl, rfl, rfl⟩
theorem test_decode_bad_operands : decode .be (.cmd 0x8 [.u32 3]) = .error (.badOperands .tryExtract) := by rfl
theorem test_decode_byte_count : decode .be (.cmd 0x2 [.bytes 3 [0x0A]]) = .error (.byteCountMismatch 3 1) := by rfl

theorem test_table_words :
    decodeTableWord 8 0x1 = some (.encAddr 0) ∧ decodeTableWord 8 0x9 = some (.route 0) ∧
      decodeTableWord 8 0xD = some (.linkReset 0) ∧ decodeTableWord 8 0x0 = none := by decide

theorem test_fetch_word_runs : respOf (step (State.reset.withFetchWord 8 0x9)) = some [.error .noLinksAvailable] := by
  decide
theorem test_fetch_header_runs :
    bufAfter (step (State.reset.withFetchWord 72 0x020A0000010A000002)) = some [(0, pa.take 9)] := by decide

/-! ### Header Codec -/

theorem test_enc_addr_be : respOf (exec (.encAddr 0x12345678) State.reset) =
    some [.ok (.bytes [0x12, 0x34, 0x56, 0x78])] := by decide  -- V40.5
theorem test_enc_addr_le : encodeAddress .le 0xC0A80001 = [0x01, 0x00, 0xA8, 0xC0] := by decide  -- V40.7
theorem test_dec_addr_ignores_rest : respOf (exec (.decAddr [0x0A, 0x00, 0x00, 0x02, 0x48, 0x69]) State.reset) =
    some [.ok (.addr 0x0A000002)] := by decide  -- V40.15
theorem test_dec_addr_short : respOf (exec (.decAddr [0x0A, 0x00, 0x00]) State.reset) =
    some [.error (.malformedHeader 4 3)] := by decide  -- V40.13
theorem test_enc_hdr : respOf (exec (.encHdr 128 0x12345678 0xDEADBEEF) State.reset) =
    some [.ok (.bytes [0x80, 0x12, 0x34, 0x56, 0x78, 0xDE, 0xAD, 0xBE, 0xEF])] := by decide  -- V40.23
theorem test_dec_hdr : respOf (exec (.decHdr [7, 1, 2, 3, 4, 5, 6, 7, 8, 9]) State.reset) =
    some [.ok (.header ⟨7, 0x01020304, 0x05060708⟩)] := by decide  -- V40.34
theorem test_dec_hdr_eight : respOf (exec (.decHdr (pa.take 8)) State.reset) =
    some [.error (.malformedHeader 9 8)] := by decide  -- V40.32

/-! ### Packet Framer -/

theorem test_create_pkt : respOf (exec (.createPkt 0xDEADBEEF [0xFF, 0x00, 0x80]) (node 0x12345678 [])) =
    some [.ok (.bytes [0x03, 0x12, 0x34, 0x56, 0x78, 0xDE, 0xAD, 0xBE, 0xEF, 0xFF, 0x00, 0x80])] := by decide  -- V41.6
theorem test_create_pkt_too_large (pl : Bytes) (h : pl.length = 256) :
    respOf (exec (.createPkt 0x0A000002 pl) (node 0x0A000001 [])) = some [.error (.payloadTooLarge 256)] := by
  simp [respOf, after, exec, execCreatePkt, createPacket, Except.map, State.reset, node, h]  -- V41.10, "any" 256 bytes
theorem test_dec_pkt_ill_formed : respOf (exec (.decPkt (0x03 :: pa.tail)) State.reset) =
    some [.ok (.packet ⟨3, 0x0A000001, 0x0A000002⟩ [0x48, 0x69])] := by decide  -- V41.27
theorem test_dec_pkt_short : respOf (exec (.decPkt []) State.reset) = some [.error (.malformedHeader 9 0)] := by
  decide  -- V41.26

/-! ### Stream Reassembler -/

theorem test_append_other_link :
    bufAfter (exec (.bufAppend 2 [0xFF]) { State.reset with buf := [(1, [0x02, 0x0A, 0x00])] }) =
      some [(1, [0x02, 0x0A, 0x00]), (2, [0xFF])] := by decide  -- V42.A4
theorem test_append_tail :
    bufAfter (exec (.bufAppend 1 [0x00, 0x01, 0x0A]) { State.reset with buf := [(1, [0x02, 0x0A, 0x00])] }) =
      some [(1, [0x02, 0x0A, 0x00, 0x00, 0x01, 0x0A])] := by decide  -- V42.A2
theorem test_extract_eight : respOf (exec (.tryExtract 1) { State.reset with buf := [(1, List.replicate 8 0)] }) =
    some [.ok (.extracted none)] := by decide  -- V42.3
theorem test_extract_trailing :
    (after (exec (.tryExtract 1) { State.reset with buf := [(1, pa ++ [0x05, 0x0A])] })).map
      (fun s => (s.buf, s.responses)) = some ([(1, [0x05, 0x0A])], [.ok (.extracted (some pa))]) := by decide  -- V42.10

/-! ### Forwarding Engine -/

theorem test_route_sample : respOf (exec (.route 0x0A000002) { node 0 [3, 5, 7] with rand := [1] }) =
    some [.ok (.link 5)] := by decide  -- V43.3
theorem test_route_empty_makes_no_draw :
    (after (exec (.route 0x0A000002) { node 0 [] with rand := [1] })).map (fun s => (s.rand, s.responses)) =
      some ([1], [.error .noLinksAvailable]) := by decide  -- V43.1
theorem test_process_delivers :
    (after (exec (.processPkt pa) { node 0x0A000002 [1] with rand := [0] })).map (fun s => (s.outputs, s.rand)) =
      some ([.clientReceive [0x48, 0x69]], [0]) := by decide  -- V43.10
theorem test_process_forwards : outOf (exec (.processPkt pa) { node 0x0A000003 [3, 5, 7] with rand := [1] }) =
    some [.linkSend 5 pa] := by decide  -- V43.13

/-! ### Node events -/

theorem test_link_rx_once :
    (after (exec (.linkRx 1 (pa ++ pb)) (node 0x0A000002 [1]))).map (fun s => (s.outputs, s.buf)) =
      some ([.clientReceive [0x48, 0x69]], [(1, pb)]) := by decide  -- V44.3
theorem test_link_rx_drains :
    (after (exec (.linkRx 1 (pd ++ pa)) { node 0x0A000002 [] with cfg := { Config.spec with rxDrain := true } })).map
      (fun s => (s.outputs, s.buf, s.responses)) =
      some ([.clientReceive [0x48, 0x69]], [],
        [.ok (.outcomes 1 [.dropped .noLinksAvailable, .delivered])]) := by decide  -- V44.8
theorem test_client_send_own_address :
    outOf (exec (.clientSend 0x0A000001 [0x00]) { node 0x0A000001 [4] with rand := [0] }) =
      some [.linkSend 4 [0x01, 0x0A, 0x00, 0x00, 0x01, 0x0A, 0x00, 0x00, 0x01, 0x00]] := by decide  -- V44.25
theorem test_client_send_no_links : respOf (exec (.clientSend 0x0A000002 [0x48]) (node 0x0A000001 [])) =
    some [.error .noLinksAvailable] := by decide  -- V44.23
theorem test_link_reset :
    bufAfter (exec (.linkReset 1) { State.reset with buf := [(1, [0x02, 0x0A]), (2, [0xFF])] }) =
      some [(2, [0xFF])] := by decide  -- V44.30
theorem test_header_of_empty_packet_is_delivered :
    outOf (exec (.pktHeader 1 0 0x0A000001 0x0A000002) (node 0x0A000002 [])) = some [.clientReceive []] := by
  decide  -- V43.12 with PE arriving on link 1

/-! ### Events -/

theorem test_reset_event :
    bufAfter (step { State.reset with buf := [(1, [0x02]), (2, [0xFF])], inputs := [.reset] }) = some [] := by
  decide  -- V44.33
theorem test_bad_command : respOf (step { State.reset with inputs := [.transfer (.cmd 0xE [])] }) = some [.badCommand] := by
  decide  -- V30.3
/-- The environment changes `LINK_SET` between the extraction and the processing of one link-read event (R224). -/
theorem test_link_set_changes_inside_link_rx :
    (match Sys2Proof.core.run 5 ({ node 0x0A000002 [] with
        inputs := [.rxBegin 1 pd, .rxAdvance 1, .setLinkSet [8], .randSample 0, .rxAdvance 1] } : State) with
      | .next s => decide (s.outputs = [.linkSend 8 pd] ∧ s.flows = [] ∧
          s.responses = [.ok (.outcomes 1 [.forwarded 8])])
      | .fault _ => false
      | .refused _ => false) = true := by decide

/-! ### Witnesses: for each obligation with hypotheses, a state and operands that meet them together -/

/-- A node with buffers `m`, capacity `c` and the given drain setting. -/
def holding (c : Option Nat) (drain : Bool) (m : Memory) : State :=
  { node 0x0A000002 [3, 5, 7] with cfg := { Config.spec with bufCap := c, rxDrain := drain }, buf := m }

theorem witness_EncodeOfDecode :
    decode .le (.cmd 0x3 [.u8 255, .u32 0, .u32 0xFFFFFFFF]) = .ok (.encHdr 255 0 0xFFFFFFFF) ∧
      ∀ k bs, Transfer.cmd 0x3 [.u8 255, .u32 0, .u32 0xFFFFFFFF] ≠ .linkRx k bs := ⟨rfl, nofun⟩

theorem witness_CommandWordsDecode : (0xF#4 = 0x0#4 ∨ 0xF#4 = 0xE#4 ∨ 0xF#4 = 0xF#4) := by decide

/-- An append that fills the buffer to its capacity, on the widest link identifier of four bits. -/
theorem witness_StepRunsDecodedOperation :
    let s : State := { holding none false [(15, pa)] with
      cfg := { narrow with bufCap := some 15 }, inputs := [.transfer (.linkRx 15 [1, 2, 3, 4])] }
    s.inputs = [.transfer (.linkRx 15 [1, 2, 3, 4])] ∧
      decode s.cfg.addrOrder (.linkRx 15 [1, 2, 3, 4]) = .ok (.linkRx 15 [1, 2, 3, 4]) ∧
      Instr.wf s.cfg (.linkRx 15 [1, 2, 3, 4]) = true ∧
      (∀ k, Instr.link? (.linkRx 15 [1, 2, 3, 4]) = some k → s.flowOf k = none) ∧
      ∀ k n, appendOf (.linkRx 15 [1, 2, 3, 4]) = some (k, n) → ∀ c, s.cfg.bufCap = some c →
        (s.bufOf k).length + n ≤ c := by
  refine ⟨rfl, rfl, rfl, fun _ _ => rfl, fun k n h c hc => ?_⟩
  cases h
  cases hc
  decide

theorem witness_ReservedCodeAnswersBadCommand :
    ({ State.reset with inputs := [.transfer (.cmd 0x0 [.u8 1])] } : State).inputs =
      [.transfer (.cmd 0x0 [.u8 1])] ∧ (0x0#4 = 0x0#4 ∨ 0x0#4 = 0xE#4 ∨ 0x0#4 = 0xF#4) := by decide

theorem witness_IdleNodeHoldsItsState :
    (holding none true [(1, pa)]).inputs = [] ∧ (holding none true [(1, pa)]).flows = [] := by decide

theorem witness_SameLinkOperationWaits :
    let f : RxFlow := ⟨1, some pa, []⟩
    let s : State := { holding none false [] with flows := [f], inputs := [.transfer (.cmd 0x8 [.link 1])] }
    s.inputs = [.transfer (.cmd 0x8 [.link 1])] ∧
      decode s.cfg.addrOrder (.cmd 0x8 [.link 1]) = .ok (.tryExtract 1) ∧
      (Instr.tryExtract 1).link? = some 1 ∧ s.flows = [f] ∧ f.link = 1 := ⟨rfl, rfl, rfl, rfl, rfl⟩

/-- One byte too many, and a wire header one byte too long, for each way they arrive. -/
theorem witness_FullBufferHoldsArrivingBytes :
    (∀ e ∈ [Event.transfer (.linkRx 1 [0xFF]), .transfer (.cmd 0xB#4 [.link 1, .bytes 1 [0xFF]]),
        .transfer (.cmd 0x7#4 [.link 1, .bytes 1 [0xFF]]), .rxBegin 1 [0xFF]],
      let s : State := { holding (some 11) true [(1, pa)] with inputs := [e] }
      s.cfg.bufCap = some 11 ∧ 11 < (s.bufOf 1).length + [(0xFF : Byte)].length ∧ s.inputs = [e] ∧ s.flows = []) ∧
    let s : State := { holding (some 19) true [(1, pa)] with inputs := [.transfer (.header 1 0)] }
    s.cfg.bufCap = some 19 ∧ 19 < (s.bufOf 1).length + 9 ∧ s.inputs = [.transfer (.header 1 0)] ∧ s.flows = [] := by
  decide

/-- Three bytes without room, one byte with room behind them, and an operation on another link. -/
theorem witness_LaterAppendsWaitBehindHeldOne :
    let s : State := { holding (some 12) true [(1, pa)] with inputs :=
      [.transfer (.linkRx 1 [1, 2, 3]), .rxBegin 1 [4], .transfer (.cmd 0x8 [.link 2])] }
    (∃ c, s.cfg.bufCap = some c ∧ c < (s.bufOf 1).length + [(1 : Byte), 2, 3].length) ∧
      (∀ e ∈ [Event.rxBegin 1 [4]], ∃ bs', e = .transfer (.linkRx 1 bs') ∨ e = .rxBegin 1 bs' ∨
        e = .transfer (.cmd 0x7#4 [.link 1, .bytes bs'.length bs']) ∨
        e = .transfer (.cmd 0xB#4 [.link 1, .bytes bs'.length bs']) ∨ ∃ w, e = .transfer (.header 1 w)) ∧
      s.inputs = .transfer (.linkRx 1 [1, 2, 3]) :: ([.rxBegin 1 [4]] ++ [.transfer (.cmd 0x8 [.link 2])]) ∧
      s.flows = [] ∧ decode s.cfg.addrOrder (.cmd 0x8 [.link 2]) = .ok (.tryExtract 2) ∧
      Instr.wf s.cfg (.tryExtract 2) = true ∧ (Instr.tryExtract 2).link? ≠ some 1 ∧
      (∀ j, (Instr.tryExtract 2).link? = some j → s.flowOf j = none) ∧
      ∀ j n, appendOf (.tryExtract 2) = some (j, n) → ∀ c, s.cfg.bufCap = some c → (s.bufOf j).length + n ≤ c :=
  ⟨⟨12, rfl, by decide⟩, fun e he => ⟨[4], .inr (.inl (List.mem_singleton.1 he))⟩, rfl, rfl, rfl, rfl, by decide,
    fun _ _ => rfl, nofun⟩

/-- The other reasons: an event in progress on the link, with the two appends as the only input. -/
theorem witness_LaterAppendsWaitBehindHeldOne_inProgress :
    let s : State := { holding none true [(1, pa)] with
      flows := [⟨1, none, []⟩], inputs := [.transfer (.linkRx 1 [1]), .transfer (.header 1 5)] }
    s.flowOf 1 ≠ none ∧ s.flows = ⟨1, none, []⟩ :: [] ∧
      (∀ e ∈ [Event.transfer (.header 1 5)], ∃ w, e = .transfer (.header 1 w)) ∧
      s.inputs = .transfer (.linkRx 1 [1]) :: ([.transfer (.header 1 5)] ++ []) :=
  ⟨by decide, rfl, fun e he => ⟨5, List.mem_singleton.1 he⟩, rfl⟩

theorem witness_ResetEmptiesEveryBuffer :
    ({ holding none false [(1, pa)] with inputs := [.reset, .randSample 4] } : State).inputs =
      [.reset, .randSample 4] ∧ ({ holding none false [(1, pa)] with inputs := [.reset] } : State).flows = [] :=
  ⟨rfl, rfl⟩

theorem witness_LinkSetIsReplaced :
    let s : State := { node 0 [] with cfg := narrow, inputs := [.setLinkSet [15, 3, 15]] }
    s.inputs = [.setLinkSet [15, 3, 15]] ∧ ∀ k ∈ [15, 3, 15], fitsLinkId s.cfg.linkIdW k = true := by decide

theorem witness_SampleGoesToTheTail :
    ({ node 0 [4] with rand := [7], inputs := [.randSample 2, .reset] } : State).inputs = [.randSample 2, .reset] := rfl

/-- A node for each `ADDR_ORDER`. -/
theorem witness_EncodeAddressResult :
    State.reset.cfg.addrOrder = .be ∧
      ({ State.reset with cfg := { Config.spec with addrOrder := .le } } : State).cfg.addrOrder = .le := by decide

theorem witness_DecodeAddressResult : ([0x0A, 0x00, 0x00] : Bytes).length < 4 := by decide

theorem witness_DecodeHeaderResult : 9 ≤ pd.length ∧ (pd.take 8).length < 9 := by decide

theorem witness_CodecInverseLaws :
    ([1, 2, 3, 4] : Bytes).length = 4 ∧ pd.length = 9 ∧ AddrOrder.le ≠ AddrOrder.be := by decide

theorem witness_CreatePacketResult :
    (List.replicate 255 (0xFF : Byte)).length ≤ 255 ∧ 255 < (List.replicate 256 (0xFF : Byte)).length := by
  rw [List.length_replicate, List.length_replicate]; decide

theorem witness_DecodePacketResult : 9 ≤ pd.length ∧ (pa.take 8).length < 9 := by decide

theorem witness_FramerRoundTrip :
    (List.replicate 255 (7 : Byte)).length ≤ 255 ∧
      ∃ p, exec (.createPkt 9 [7]) State.reset = .next { State.reset with responses := [.ok (.bytes p)] } :=
  ⟨(List.length_replicate ..).le, _, rfl⟩

/-- An append that fills the buffer to its capacity. -/
theorem witness_AppendResult : ∀ c, (holding (some 12) false [(1, pa)]).cfg.bufCap = some c →
    ((holding (some 12) false [(1, pa)]).bufOf 1).length + [(0xFF : Byte)].length ≤ c := by
  intro c h; cases h; decide

/-- The boundaries of the two clauses: eight bytes, one byte short of a packet, a whole packet. -/
theorem witness_TryExtractResult :
    ((holding none false [(1, pa.take 8)]).bufOf 1).length < 9 ∧
      ((holding none false [(1, pa.take 10)]).bufOf 1).length <
        9 + (((holding none false [(1, pa.take 10)]).bufOf 1).headD 0).toNat ∧
      9 + (((holding none false [(1, pa)]).bufOf 1).headD 0).toNat ≤ ((holding none false [(1, pa)]).bufOf 1).length := by
  decide

theorem witness_ReturnedPacketsAreWellFormed :
    (∃ t, exec (.createPkt 0x0A000003 []) (node 0x0A000001 []) = .next t ∧
      t.responses = (node 0x0A000001 []).responses ++ [.ok (.bytes pd)]) ∧
    ∃ t, exec (.tryExtract 1) (holding none false [(1, pa)]) = .next t ∧
      t.responses = (holding none false [(1, pa)]).responses ++ [.ok (.extracted (some pa))] :=
  ⟨⟨_, rfl, by decide⟩, _, rfl, by decide⟩

theorem witness_MinimumHeaderBoundary :
    ((holding none false [(1, pd.take 8)]).bufOf 1).length = 8 ∧ ((holding none false [(1, pd)]).bufOf 1).length = 9 ∧
      ((holding none false [(1, pd)]).bufOf 1).headD 0 = 0 := by decide

theorem witness_IncompletePacketIsPeekedOnly :
    ((holding none false [(1, pa.take 10)]).bufOf 1).length < 9 ∨
      ((holding none false [(1, pa.take 10)]).bufOf 1).length <
        9 + (((holding none false [(1, pa.take 10)]).bufOf 1).headD 0).toNat := by decide

/-- A packet in pieces of 0, 8 and 2 bytes, then its last byte with one more, in a buffer they just fill. -/
theorem witness_PiecewiseFeeding :
    (holding (some 12) false []).bufOf 1 = [] ∧ pa.drop 10 ≠ [] ∧
      PacketWellFormed ([[], pa.take 8, slice pa 8 10].flatten ++ pa.drop 10) ∧
      ∀ c, (holding (some 12) false []).cfg.bufCap = some c →
        ([[], pa.take 8, slice pa 8 10].flatten ++ pa.drop 10 ++ [0x05]).length ≤ c := by
  refine ⟨rfl, by decide, by decide, fun c h => ?_⟩; cases h; decide

theorem witness_ConcatenatedPackets :
    (holding none false []).bufOf 1 = [] ∧ (∀ p ∈ [pd, pa], PacketWellFormed p) ∧
      (holding none false []).cfg.bufCap = none ∧
      (∀ i ∈ [.bufAppend 1 (pd ++ pa.take 3), .tryExtract 1, .bufAppend 1 (pa.drop 3)], reassemblerOp 1 i = true) ∧
      appendedBytes [.bufAppend 1 (pd ++ pa.take 3), .tryExtract 1, .bufAppend 1 (pa.drop 3)] = [pd, pa].flatten := by
  decide

theorem witness_StreamConservation :
    (∀ i ∈ [Instr.bufAppend 1 pd, .tryExtract 1], reassemblerOp 1 i = true) ∧
      ∃ t, execAll [.bufAppend 1 pd, .tryExtract 1] (holding none false [(1, pa)]) = .next t := ⟨by decide, _, rfl⟩

theorem witness_OccupancyBound : ∃ t u,
    exec (.tryExtract 1) (holding none false [(1, 255 :: List.replicate 20 0)]) = .next t ∧
      t.responses = (holding none false [(1, 255 :: List.replicate 20 0)]).responses ++ [.ok (.extracted none)] ∧
      exec (.bufAppend 1 [7]) t = .next u := ⟨_, _, rfl, by decide, rfl⟩

/-- No link, one link, and the last index of three. -/
theorem witness_RouteResult :
    (node 0 []).linkSet = [] ∧ (node 0 [3, 5, 7]).linkSet ≠ [] ∧ 7 ∈ (node 0 [3, 5, 7]).linkSet ∧
      (node 0 [3, 5, 7]).cfg.snapshotFirst = [] ∧ (node 0 [3, 5, 7]).linkSet[2]? = some 7 ∧
      (node 0 [4]).linkSet = [4] := by decide

/-- Eight bytes; nine bytes for this node; not for this node without a link, and with one. -/
theorem witness_ProcessPacketResult :
    (pd.take 8).length < 9 ∧ 9 ≤ pd.length ∧
      destinationOf (node 0x0A000003 []).cfg.addrOrder pd = (node 0x0A000003 []).localAddr ∧
      destinationOf (node 0x0A000002 []).cfg.addrOrder pd ≠ (node 0x0A000002 []).localAddr ∧
      (node 0x0A000002 []).linkSet = [] ∧
      destinationOf (node 0x0A000002 [4]).cfg.addrOrder pd ≠ (node 0x0A000002 [4]).localAddr ∧
      (node 0x0A000002 [4]).linkSet ≠ [] := by decide

/-- A `LinkSend`, and an operation that emits nothing. -/
theorem witness_OutputsHaveTheirSource :
    (∃ t, exec (.processPkt pd) (node 0x0A000002 [4]) = .next t) ∧
      (∃ t, exec (.clientSend 9 []) (node 0x0A000002 [4]) = .next t) ∧
      (∀ p, Instr.clientSend 9 [] ≠ .processPkt p) ∧ (∀ k bs, Instr.clientSend 9 [] ≠ .linkRx k bs) ∧
      (∀ k n a b, Instr.clientSend 9 [] ≠ .pktHeader k n a b) ∧
      (∃ t, exec (.linkReset 1) (node 0x0A000002 [4]) = .next t) ∧ ∀ d pl, Instr.linkReset 1 ≠ .clientSend d pl :=
  ⟨⟨_, rfl⟩, ⟨_, rfl⟩, nofun, nofun, nofun, ⟨_, rfl⟩, nofun⟩

/-- An event in progress, with a packet to process and without one, that the step moves on. -/
theorem witness_StepOutputsHaveTheirSource :
    (let s : State := { holding none true [] with flows := [⟨1, some pd, []⟩] };
      (∃ t, step s = .next t) ∧ servedFlow s = some ⟨1, some pd, []⟩) ∧
    let s : State := { holding none true [(2, pd)] with
      flows := [⟨1, some pd, []⟩, ⟨2, none, []⟩], inputs := [.rxAdvance 2] }
    (∃ t, step s = .next t) ∧ servedFlow s = some ⟨2, none, []⟩ ∧
      ∀ x rest, s.pick [] s.inputs ≠ some (.transfer x, rest) :=
  ⟨⟨⟨_, rfl⟩, by decide⟩, ⟨_, rfl⟩, by decide, nofun⟩

theorem witness_LinkReadCompletes :
    (∀ c, (holding (some 20) true [(1, pa)]).cfg.bufCap = some c →
      ((holding (some 20) true [(1, pa)]).bufOf 1).length + pd.length ≤ c) ∧
    pd = encodeHeader (holding (some 20) true [(1, pa)]).cfg.addrOrder 0 0x0A000001 0x0A000003 := by
  refine ⟨fun c h => ?_, by decide⟩; cases h; decide

theorem witness_WireHeaderArrives :
    (holding (some 9) true []).bufOf 1 = [] ∧ (∀ c, (holding (some 9) true []).cfg.bufCap = some c → 9 ≤ c) ∧
      (1 : Byte) ≠ 0 ∧ (0x0A000002 : Addr) = (holding (some 9) true []).localAddr := by
  refine ⟨rfl, fun c h => ?_, by decide, rfl⟩; cases h; decide

/-- Both clauses at their boundary, under both settings of `RX_DRAIN`. -/
theorem witness_LinkReadTurnByTurn :
    (∀ c, (holding (some 11) true [(1, pa.take 7)]).cfg.bufCap = some c →
      ((holding (some 11) true [(1, pa.take 7)]).bufOf 1).length + (pa.drop 7).length ≤ c) ∧
    ((holding (some 11) true [(1, pa.take 7)]).bufOf 1 ++ slice pa 7 10).length <
      9 + (((holding (some 11) true [(1, pa.take 7)]).bufOf 1 ++ slice pa 7 10).headD 0).toNat ∧
    9 + (((holding (some 11) true [(1, pa.take 7)]).bufOf 1 ++ pa.drop 7).headD 0).toNat ≤
      ((holding (some 11) true [(1, pa.take 7)]).bufOf 1 ++ pa.drop 7).length ∧
    (holding (some 11) true [(1, pa.take 7)]).cfg.rxDrain = true ∧
    (holding (some 11) false [(1, pa.take 7)]).cfg.rxDrain = false := by
  refine ⟨fun c h => ?_, by decide, by decide, rfl, rfl⟩; cases h; decide

theorem witness_LinkReadBegins :
    let s : State := { holding none true [(15, pa)] with
      cfg := { narrow with bufCap := some 12 }, flows := [⟨1, none, []⟩], inputs := [.rxBegin 15 [0xFF]] }
    s.inputs = [.rxBegin 15 [0xFF]] ∧ s.flowOf 15 = none ∧ fitsLinkId s.cfg.linkIdW 15 = true ∧
      ∀ c, s.cfg.bufCap = some c → (s.bufOf 15).length + [(0xFF : Byte)].length ≤ c := by
  refine ⟨rfl, rfl, rfl, fun c h => ?_⟩; cases h; decide

/-- An attempt one byte short of a packet, one that finds a packet, and a packet to process under each `RX_DRAIN`. -/
theorem witness_LinkReadAdvances :
    ∀ d, ∀ k ∈ [1, 2, 3],
      let s : State := { holding none d [(1, pa.take 10), (2, pa)] with
        flows := [⟨1, none, []⟩, ⟨2, none, []⟩, ⟨3, some pd, [.delivered]⟩], inputs := [.rxAdvance k] }
      s.inputs = [.rxAdvance k] ∧ s.cfg.rxDrain = d ∧ s.flowOf 1 = some ⟨1, none, []⟩ ∧
        s.flowOf 2 = some ⟨2, none, []⟩ ∧ s.flowOf 3 = some ⟨3, some pd, [.delivered]⟩ ∧
        (s.bufOf 1).length < 9 + ((s.bufOf 1).headD 0).toNat ∧
        9 + ((s.bufOf 2).headD 0).toNat ≤ (s.bufOf 2).length := by decide

theorem witness_DrainingLeavesNoPacket :
    (holding none true [(1, pa)]).cfg.rxDrain = true ∧
      ∃ t, exec (.linkRx 1 (pd ++ pb.take 8)) (holding none true [(1, pa)]) = .next t := ⟨rfl, _, rfl⟩

theorem witness_PrimitiveStepsMakeUpLinkRead :
    let s : State := { holding none true [(15, pa)] with cfg := { narrow with bufCap := some 20 } }
    fitsLinkId s.cfg.linkIdW 15 = true ∧
      ∀ c, s.cfg.bufCap = some c → (s.bufOf 15).length + pd.length ≤ c := by
  refine ⟨rfl, fun c h => ?_⟩; cases h; decide

/-- Two packets at once, a part of a third, and its rest. -/
theorem witness_DrainSettingsAgreeUpToDelay : ∃ u, execAll ([pa ++ pd, pb.take 3, pb.drop 3].map (.linkRx 1))
    { holding (some 264) true [] with cfg := { (holding (some 264) true []).cfg with rxDrain := false } } = .next u :=
  ⟨_, rfl⟩

theorem witness_ClientSendResult :
    255 < (List.replicate 256 (0 : Byte)).length ∧ (List.replicate 255 (0 : Byte)).length ≤ 255 ∧
      (node 1 []).linkSet = [] ∧ (node 1 [4]).linkSet ≠ [] := by
  rw [List.length_replicate, List.length_replicate]; decide

theorem witness_ClientCannotSpoofSource :
    ∃ t, exec (.clientSend 0x0A000003 []) { node 0x0A000001 [4] with rand := [0] } = .next t ∧
      t.outputs = ({ node 0x0A000001 [4] with rand := [0] } : State).outputs ++ [.linkSend 4 pd] :=
  ⟨_, rfl, by decide⟩

/-- An operation of each kind of status that completes. -/
theorem witness_EveryOperationReturnsItsStatus :
    (∃ t, exec (.linkRx 1 pd) (node 0x0A000002 []) = .next t) ∧
      ∃ t, exec (.decHdr (pd.take 8)) State.reset = .next t := ⟨⟨_, rfl⟩, _, rfl⟩

theorem witness_ErrorsArePrecise :
    ∃ t, exec (.processPkt pd) (node 0x0A000002 []) = .next t ∧
      t.responses = (node 0x0A000002 []).responses ++ [.error .noLinksAvailable] := ⟨_, rfl, by decide⟩

theorem witness_OperationTouchesOneBuffer :
    (∃ t, exec (.linkRx 1 pa) (holding none true [(1, pd), (2, pb)]) = .next t) ∧
      (Instr.linkRx 1 pa).link? ≠ some 2 := ⟨⟨_, rfl⟩, by decide⟩

theorem witness_StepTouchesOneBuffer :
    let s : State := { holding none true [(1, pd), (2, pb)] with
      flows := [⟨2, none, []⟩], inputs := [.transfer (.linkRx 1 pa)] }
    (∃ t, step s = .next t) ∧ (∀ rest, s.pick [] s.inputs ≠ some (.reset, rest)) ∧ servedLink s ≠ some 2 :=
  ⟨⟨_, rfl⟩, nofun, by decide⟩

theorem witness_LinksCommute :
    (Instr.linkRx 1 pa).link? = some 1 ∧ (Instr.tryExtract 2).link? = some 2 ∧ 1 ≠ 2 ∧
      ∃ t, execAll [.linkRx 1 pa, .tryExtract 2] (holding none true [(1, pd), (2, pb)]) = .next t :=
  ⟨rfl, rfl, by decide, _, rfl⟩

theorem witness_StepKeepsAddressAndParameters :
    ∃ t, step { holding none true [(1, pd)] with inputs := [.transfer (.linkRx 1 pa)] } = .next t := ⟨_, rfl⟩

/-- A node with a full buffer, an event in progress and an event waiting. -/
theorem witness_StepKeepsInvariant :
    let s : State := { holding (some 11) true [(1, pa), (2, pd)] with
      flows := [⟨2, some pb, [.delivered]⟩], outputs := [.linkSend 3 pd],
      inputs := [.transfer (.linkRx 1 [0xFF]), .setLinkSet [8]] }
    NodeInvariant s ∧ ∃ t, step s = .next t := by
  refine ⟨⟨by decide, by decide, by decide, ?_, ?_, ?_⟩, _, rfl⟩
  · intro f hf p hp
    have : f = ⟨2, some pb, [.delivered]⟩ := by simpa using hf
    subst this; cases hp; decide
  · intro c hc k
    cases hc
    rw [State.bufLen, State.bufOf]
    simp only [memGet, holding]
    split
    · decide
    · split <;> decide
  · intro k bs h
    have h' : Output.linkSend k bs = .linkSend 3 pd := by simpa using h
    cases h'; decide

theorem witness_EndToEndTransparency :
    (node 0x0A000004 [3]).cfg.addrOrder = (node 0x0A000001 []).cfg.addrOrder ∧
      (holding none true [(2, pb)]).cfg.addrOrder = (node 0x0A000001 []).cfg.addrOrder ∧
      ([0x48, 0x69] : Bytes).length ≤ 255 ∧ (node 0x0A000004 [3]).localAddr ≠ 0x0A000002 ∧
      (node 0x0A000004 [3]).linkSet ≠ [] ∧ (holding none true [(2, pb)]).localAddr = 0x0A000002 ∧
      (holding none true [(2, pb)]).bufOf 1 = [] ∧ (holding none true [(2, pb)]).cfg.bufCap = none := by decide

/-- Nodes for each clause: the reversed destination is the second node's address, or is not, with and without a link; an
empty buffer that the longest packet just fills. -/
theorem witness_MixedByteOrdersMisread :
    let a := node 1 []
    let le : Config := { Config.spec with addrOrder := .le, bufCap := some 264 }
    a.cfg.addrOrder ≠ le.addrOrder ∧ (List.replicate 255 (0 : Byte)).length ≤ 255 ∧
      encodeAddress .be 0x0200000A = (encodeAddress .be 0x0A000002).reverse ∧
      ({ node 0x0200000A [] with cfg := le } : State).localAddr = 0x0200000A ∧
      (0x0200000A : Addr) ≠ ({ node 7 [4] with cfg := le } : State).localAddr ∧ (node 7 []).linkSet = [] ∧
      (node 7 [4]).linkSet ≠ [] ∧ ({ node 7 [] with cfg := le } : State).bufOf 1 = [] ∧
      ∀ c, le.bufCap = some c → (encodeHeader .be 255 1 0x0A000002 ++ List.replicate 255 0).length ≤ c :=
  ⟨by decide, (List.length_replicate ..).le, by decide, rfl, by decide, rfl, by decide, rfl, fun c h => by
    cases h; rw [List.length_append, List.length_replicate]; decide⟩

end Sys2Proof.Tests
end

section
/-! The hidden state and the random source (R107, R116): what a step does with an event at the head of the inputs. -/

namespace Sys2Proof.Machine

variable {s : State} {e : Event} {rest : List Event}

/-- An enabled event at the head of the inputs is the one the step serves (R220). -/
theorem step_of_head_ready (hin : s.inputs = e :: rest) (hready : s.eventReady [] e = true) :
    step s = runEvent e { s with inputs := rest } := by
  have hpick : s.pick [] s.inputs = some (e, rest) := hin ▸ pick_head s rest hready
  exact step_of_pick s hpick

/-- A new sample waits for nothing: neither a full buffer nor a link-read event in progress holds it. -/
@[simp] theorem eventReady_randSample (s : State) (waiting : List LinkId) (r : Nat) :
    s.eventReady waiting (.randSample r) = true := rfl

@[simp] theorem runEvent_randSample (s : State) (r : Nat) :
    runEvent (.randSample r) s = .next { s with rand := s.rand ++ [r] } := rfl

/-- Settles O53: a new sample is always enabled, so at the head of the inputs it is the event the step serves. -/
theorem sampleGoesToTheTail : Obligations.SampleGoesToTheTail := by
  intro s r rest hin
  calc step s
      _ = runEvent (.randSample r) { s with inputs := rest } :=
        step_of_head_ready hin (eventReady_randSample s [] r)
      _ = .next { s with inputs := rest, rand := s.rand ++ [r] } := runEvent_randSample _ r

end Sys2Proof.Machine
end

section
/-! One buffer per operation (R222, R225): what an operation that completes has done to the node, and what its effect on the
buffer of its own link rests on. -/

namespace Sys2Proof.Machine

variable {s s' t : State} {i j : Instr} {k l : LinkId}

/-- An attempt on an incomplete packet changes nothing but adds its response (R208, R421). -/
theorem exec_tryExtract_of_incomplete
    (h : (s.bufOf k).length < 9 ∨ (s.bufOf k).length < 9 + ((s.bufOf k).headD 0).toNat) :
    exec (.tryExtract k) s = .next (s.respond (.ok (.extracted none))) := by
  change Host.Outcome.next ((s.tryExtract k).2.complete (.extracted (s.tryExtract k).1)) = _
  rw [tryExtract_none s h, complete_eq]

/-- Settles O26, by induction on the number of attempts: each leaves the buffer as the next one needs it. -/
theorem incompletePacketIsPeekedOnly : Obligations.IncompletePacketIsPeekedOnly := by
  intro s k n hinc
  induction n generalizing s with
  | zero => simp [execAll]
  | succ n ih =>
    have hrest := ih (s.respond (.ok (.extracted none))) hinc
    rw [List.replicate_succ, execAll, exec_tryExtract_of_incomplete hinc]
    refine hrest.trans ?_
    simp [State.respond, List.replicate_succ]

@[simp] theorem bufOf_finish (s : State) (r : Except CoreError Result) (k : LinkId) :
    (s.finish r).bufOf k = s.bufOf k := by
  rw [State.bufOf, finish_buf]; rfl

/-- What an operation has done to the node by the time it returns its response: one shared operation, or nothing. -/
inductive OpEffect (s : State) : Instr → State → Prop
  | unchanged (i : Instr) : OpEffect s i s
  | routed (d : Addr) : OpEffect s (.route d) s.route.2
  | processed (p : Bytes) : OpEffect s (.processPkt p) (s.processPacket p).2
  | sent (d : Addr) (pl : Bytes) : OpEffect s (.clientSend d pl) (s.sendData d pl).2
  | written {i : Instr} {k : LinkId} (hk : i.link? = some k) (b : Bytes) : OpEffect s i (s.setBuf k b)
  | received {i : Instr} {k : LinkId} (hk : i.link? = some k) (bs : Bytes) : OpEffect s i (s.linkRead k bs).2

theorem receive_next {bs : Bytes} (h : s.receive k bs = .next t) :
    s.hasRoom k bs.length = true ∧ t = (s.linkRead k bs).2.finish (.ok (.outcomes k (s.linkRead k bs).1)) := by
  rcases receive_cases s k bs with ⟨hroom, heq⟩ | ⟨_, heq⟩ <;> rw [heq] at h
  · exact ⟨hroom, (Host.Outcome.next.inj h).symm⟩
  · nomatch h

theorem execBufAppend_next {bs : Bytes} (h : execBufAppend k bs s = .next t) :
    s.hasRoom k bs.length = true ∧ t = (s.setBuf k (s.bufOf k ++ bs)).finish (.ok .done) := by
  unfold execBufAppend at h
  split at h
  · next hroom => exact ⟨hroom, (Host.Outcome.next.inj h).symm⟩
  · nomatch h

theorem tryExtract_effect (s : State) (k : LinkId) : OpEffect s (.tryExtract k) (s.tryExtract k).2 := by
  rcases tryExtract_cases s k with ⟨_, heq⟩ | ⟨_, heq⟩ <;> rw [heq]
  · exact .unchanged _
  · exact .written rfl _

/-- An operation that completes ends its effect with one response (R600). -/
theorem exec_effect (h : exec i s = .next t) : ∃ u r, OpEffect s i u ∧ t = u.finish r := by
  cases i with
  | encAddr | encHdr => cases h; exact ⟨s, .ok _, .unchanged _, rfl⟩
  | decAddr | decHdr | createPkt | decPkt => cases h; exact ⟨s, _, .unchanged _, rfl⟩
  | bufAppend k bs => exact ⟨_, _, .written rfl _, (execBufAppend_next h).2⟩
  | tryExtract k => cases h; exact ⟨_, .ok _, tryExtract_effect s k, rfl⟩
  | route d => cases h; exact ⟨_, _, .routed d, rfl⟩
  | processPkt p => cases h; exact ⟨_, _, .processed p, rfl⟩
  | linkRx k bs => exact ⟨_, _, .received rfl bs, (receive_next h).2⟩
  | clientSend d pl => cases h; exact ⟨_, _, .sent d pl, rfl⟩
  | linkReset k => cases h; exact ⟨_, .ok _, .written rfl [], rfl⟩
  | pktHeader k len src dst => exact ⟨_, _, .received rfl _, (receive_next h).2⟩

/-- Routing a packet makes a draw at most (R430). -/
theorem route_frame (s : State) : SameFrame s s.route.2 ∧ s.route.2.buf = s.buf := by
  rcases route_cases s with ⟨_, heq⟩ | ⟨k, _, heq⟩ <;> rw [heq]
  · exact ⟨.refl s, rfl⟩
  · exact ⟨by constructor <;> simp, by simp⟩

/-- Originating a packet touches no buffer and nothing of the frame (R455). -/
theorem sendData_frame (s : State) (d : Addr) (pl : Bytes) :
    SameFrame s (s.sendData d pl).2 ∧ (s.sendData d pl).2.buf = s.buf := by
  rcases sendData_cases s d pl with ⟨_, heq⟩ | ⟨_, _, heq⟩ | ⟨_, k, _, heq⟩ <;> rw [heq]
  · exact ⟨.refl s, rfl⟩
  · exact ⟨.refl s, rfl⟩
  · exact ⟨draw_emit_frame s _ _, by simp⟩

theorem OpEffect.frame {u : State} (h : OpEffect s i u) : SameFrame s u := by
  cases h with
  | unchanged => exact .refl s
  | routed d => exact (route_frame s).1
  | processed p => exact (processPacket_frame s p).1
  | sent d pl => exact (sendData_frame s d pl).1
  | written _ b => exact setBuf_frame s _ b
  | received _ bs => exact (linkRead_frame s _ bs).1

theorem OpEffect.bufOf_ne {u : State} (h : OpEffect s i u) (hl : i.link? ≠ some l) : u.bufOf l = s.bufOf l := by
  cases h with
  | unchanged => rfl
  | routed d => exact congrArg (memGet · l) (route_frame s).2
  | processed p => exact congrArg (memGet · l) (processPacket_frame s p).2
  | sent d pl => exact congrArg (memGet · l) (sendData_frame s d pl).2
  | @written _ k hk b => exact bufOf_setBuf_ne s b fun hlk => hl (hlk ▸ hk)
  | @received _ k hk bs => exact (linkRead_frame s k bs).2 l fun hlk => hl (hlk ▸ hk)

theorem exec_cfg (h : exec i s = .next t) : t.cfg = s.cfg := by
  obtain ⟨u, r, hu, rfl⟩ := exec_effect h
  exact (finish_cfg u r).trans hu.frame.cfg

theorem exec_bufOf_ne (h : exec i s = .next t) (hl : i.link? ≠ some l) : t.bufOf l = s.bufOf l := by
  obtain ⟨u, r, hu, rfl⟩ := exec_effect h
  exact (bufOf_finish u r l).trans (hu.bufOf_ne hl)

/-- Settles O45: what an operation has done before it responds is one shared operation, and each of them leaves the other
buffers alone. -/
theorem operationTouchesOneBuffer : Obligations.OperationTouchesOneBuffer := by
  intro i s t h j hj
  exact exec_bufOf_ne h hj

/-! ### The buffer of an operation's own link depends on the parameters and on that buffer alone -/

/-- Two nodes that an operation on link `k` cannot tell apart by what it does to `buf[k]`. -/
structure AgreeOn (k : LinkId) (s s' : State) : Prop where
  cfg : s'.cfg = s.cfg
  buf : s'.bufOf k = s.bufOf k

theorem AgreeOn.setBuf (h : AgreeOn k s s') (b : Bytes) : AgreeOn k (s.setBuf k b) (s'.setBuf k b) :=
  ⟨h.cfg, by simp⟩

theorem AgreeOn.hasRoom (h : AgreeOn k s s') (n : Nat) : s'.hasRoom k n = s.hasRoom k n := by
  rw [Bool.eq_iff_iff, hasRoom_iff, hasRoom_iff, h.cfg, h.buf]

theorem AgreeOn.tryExtract (h : AgreeOn k s s') :
    (s'.tryExtract k).1 = (s.tryExtract k).1 ∧ AgreeOn k (s.tryExtract k).2 (s'.tryExtract k).2 := by
  rcases tryExtract_cases s k with ⟨hc, heq⟩ | ⟨hc, heq⟩ <;> rw [heq]
  · rw [tryExtract_none s' (h.buf ▸ hc)]; exact ⟨rfl, h⟩
  · rw [tryExtract_some s' (h.buf ▸ hc), h.buf]; exact ⟨rfl, h.setBuf _⟩

theorem AgreeOn.processPacket (h : AgreeOn k s s') (p : Bytes) :
    AgreeOn k (s.processPacket p).2 (s'.processPacket p).2 := by
  have hs := processPacket_frame s p
  have hs' := processPacket_frame s' p
  refine ⟨by rw [hs.1.cfg, hs'.1.cfg, h.cfg], ?_⟩
  rw [State.bufOf, State.bufOf, hs.2, hs'.2]
  exact h.buf

/-- The packets a link-read event takes off its buffer are decided by the buffer: what becomes of each packet has no
influence (R442, R450). -/
theorem AgreeOn.rxLoop (h : AgreeOn k s s') (n : Nat) : AgreeOn k (s.rxLoop k n).2 (s'.rxLoop k n).2 := by
  induction n generalizing s s' with
  | zero => exact h
  | succ n ih =>
    by_cases hc : 9 + ((s.bufOf k).headD 0).toNat ≤ (s.bufOf k).length
    · have hc' : 9 + ((s'.bufOf k).headD 0).toNat ≤ (s'.bufOf k).length := h.buf ▸ hc
      have hproc := (h.setBuf ((s.bufOf k).drop (9 + ((s.bufOf k).headD 0).toNat))).processPacket
        ((s.bufOf k).take (9 + ((s.bufOf k).headD 0).toNat))
      rw [rxLoop_some s n hc, rxLoop_some s' n hc', h.buf, h.cfg]
      simp only
      split
      · exact ih hproc
      · exact hproc
    · have hinc : (s.bufOf k).length < 9 ∨ (s.bufOf k).length < 9 + ((s.bufOf k).headD 0).toNat := by omega
      rw [rxLoop_none s _ hinc, rxLoop_none s' _ (h.buf ▸ hinc)]
      exact h

theorem AgreeOn.linkRead (h : AgreeOn k s s') (bs : Bytes) : AgreeOn k (s.linkRead k bs).2 (s'.linkRead k bs).2 := by
  have happ : AgreeOn k (s.bufAppend k bs) (s'.bufAppend k bs) := by
    rw [bufAppend_eq, bufAppend_eq, h.buf]; exact h.setBuf _
  rw [State.linkRead, State.linkRead, State.bufLen, State.bufLen, happ.buf]
  exact happ.rxLoop _

theorem AgreeOn.receive (h : AgreeOn k s s') {bs : Bytes} (ht : s.receive k bs = .next t) :
    ∃ t', s'.receive k bs = .next t' ∧ t'.bufOf k = t.bufOf k := by
  obtain ⟨hroom, rfl⟩ := receive_next ht
  rw [← h.hasRoom] at hroom
  refine ⟨_, by rw [State.receive, if_pos hroom], ?_⟩
  rw [complete_eq, bufOf_respond, bufOf_finish]
  exact (h.linkRead bs).buf

/-- An operation on link `k` that completes at one node completes at every node that agrees with it on `k`, with the same
bytes left in `buf[k]` (R222, R225). -/
theorem AgreeOn.exec (h : AgreeOn k s s') (hk : i.link? = some k) (ht : exec i s = .next t) :
    ∃ t', exec i s' = .next t' ∧ t'.bufOf k = t.bufOf k := by
  match i, hk with
  | .bufAppend _ bs, rfl =>
    obtain ⟨hroom, rfl⟩ := execBufAppend_next ht
    rw [← h.hasRoom] at hroom
    exact ⟨_, if_pos hroom, by simp [h.buf]⟩
  | .tryExtract _, rfl => cases ht; exact ⟨_, rfl, h.tryExtract.2.buf⟩
  | .linkRx _ bs, rfl => exact h.receive ht
  | .linkReset _, rfl => cases ht; exact ⟨_, rfl, (h.setBuf []).buf⟩
  | .pktHeader _ len src dst, rfl =>
    show ∃ t', s'.receive _ (encodeHeader s'.cfg.addrOrder len src dst) = .next t' ∧ _
    rw [h.cfg]
    exact h.receive ht

theorem execAll_pair_next :
    execAll [i, j] s = .next t ↔ ∃ m, exec i s = .next m ∧ exec j m = .next t := by
  simp only [execAll]
  cases exec i s with
  | next m => cases hj : exec j m <;> simp [hj]
  | fault | refused => simp

/-- An operation leaves the node as it was for every operation on another link. -/
theorem agreeOn_of_exec (h : exec i s = .next t) (hl : i.link? ≠ some l) : AgreeOn l s t :=
  ⟨exec_cfg h, exec_bufOf_ne h hl⟩

theorem AgreeOn.symm (h : AgreeOn k s s') : AgreeOn k s' s := ⟨h.cfg.symm, h.buf.symm⟩

/-- Settles O46: each operation leaves the node as it was for the other (`agreeOn_of_exec`), so each completes in either
order, with the same bytes on its own link. -/
theorem linksCommute : Obligations.LinksCommute := by
  intro i j k l s t hi hj hkl h
  obtain ⟨m, him, hjt⟩ := execAll_pair_next.1 h
  have hil : i.link? ≠ some l := fun h => hkl (Option.some.inj (hi.symm.trans h))
  have hjk : j.link? ≠ some k := fun h => hkl (Option.some.inj (h.symm.trans hj))
  obtain ⟨m', hjm', hbufl⟩ := (agreeOn_of_exec him hil).symm.exec hj hjt
  obtain ⟨u, hiu, hbufk⟩ := (agreeOn_of_exec hjm' hjk).exec hi him
  refine ⟨u, execAll_pair_next.2 ⟨m', hjm', hiu⟩, fun n => ?_⟩
  by_cases hnk : i.link? = some n
  · obtain rfl : k = n := Option.some.inj (hi.symm.trans hnk)
    exact hbufk.trans (exec_bufOf_ne hjt hjk).symm
  · have hun : u.bufOf n = m'.bufOf n := exec_bufOf_ne hiu hnk
    by_cases hnl : j.link? = some n
    · obtain rfl : l = n := Option.some.inj (hj.symm.trans hnl)
      exact hun.trans hbufl
    · calc u.bufOf n = m'.bufOf n := hun
        _ = s.bufOf n := exec_bufOf_ne hjm' hnl
        _ = m.bufOf n := (exec_bufOf_ne him hnk).symm
        _ = t.bufOf n := (exec_bufOf_ne hjt hnl).symm

end Sys2Proof.Machine
end

section
/-! One step of the node (R220 to R224): what the step it takes can have been, whatever the scheduling of log entry 8
chose, and from that what it writes and what it emits. -/

namespace Sys2Proof.Machine

variable {s t u : State} {f : RxFlow} {k : LinkId}

/-- A transfer that the node serves invokes an operation or is answered `BadCommand` (R311, R312). -/
theorem runTransfer_next {x : Transfer} (h : runTransfer x s = .next t) :
    (∃ i, decode s.cfg.addrOrder x = .ok i ∧ exec i s = .next t) ∨
    (∃ r, decode s.cfg.addrOrder x = .error r) ∧ t = s.respond .badCommand := by
  unfold runTransfer at h
  split at h
  · next i hdec =>
    unfold runInstr at h
    split at h
    · exact .inl ⟨i, hdec, h⟩
    · nomatch h
  · next hdec => exact .inr ⟨⟨_, hdec⟩, (Host.Outcome.next.inj h).symm⟩
  · nomatch h
  · nomatch h

theorem flowOf_link (h : s.flowOf k = some f) : f.link = k := by
  simpa using List.find?_some h

/-- What a step of the node can have been: an operation, the beginning of a link-read event in progress
or its next primitive step, `RESET`, or something that neither writes a buffer nor emits (a reserved code among them). -/
inductive StepEffect (s : State) : State → Prop
  | operation {x : Transfer} {i : Instr} {rest : List Event} {t : State}
      (hpick : s.pick [] s.inputs = some (.transfer x, rest)) (hlink : servedLink s = i.link?)
      (hexec : exec i { s with inputs := rest } = .next t) : StepEffect s t
  | began {k : LinkId} {bs : Bytes} {rest : List Event} (hlink : servedLink s = some k) :
      StepEffect s ({ s with inputs := rest }.rxBegin k bs)
  | advanced {f : RxFlow} {rest : List Event} (hflow : servedFlow s = some f) (hlink : servedLink s = some f.link) :
      StepEffect s ({ s with inputs := rest }.rxAdvanceFlow f)
  | cleared {rest : List Event} (hpick : s.pick [] s.inputs = some (.reset, rest)) :
      StepEffect s { s with inputs := rest }.coreReset
  | silent {t : State} (hbuf : t.buf = s.buf) (hout : t.outputs = s.outputs) : StepEffect s t

theorem step_of_idle (h : s.pick [] s.inputs = none) (hflows : s.flows = []) : step s = .next s := by
  simp only [step, serveNext, h, hflows]

theorem step_of_oldest_flow {fs : List RxFlow} (h : s.pick [] s.inputs = none) (hflows : s.flows = f :: fs) :
    step s = .next (s.rxAdvanceFlow f) := by
  simp only [step, serveNext, h, hflows]

theorem rxAdvance_of_flowOf (h : s.flowOf k = some f) : s.rxAdvance k = s.rxAdvanceFlow f := by
  simp only [State.rxAdvance, h]

theorem rxAdvance_of_no_flow (h : s.flowOf k = none) : s.rxAdvance k = s := by
  simp only [State.rxAdvance, h]

/-- A step that moves on a link-read event in progress is that event's next primitive step. -/
theorem step_of_servedFlow (h : servedFlow s = some f) :
    servedLink s = some f.link ∧ ∃ rest, step s = .next ({ s with inputs := rest }.rxAdvanceFlow f) := by
  cases hpick : s.pick [] s.inputs with
  | none =>
    simp only [servedFlow, hpick] at h
    obtain ⟨fs, hflows⟩ := List.head?_eq_some_iff.1 h
    exact ⟨by simp [servedLink, hpick, h], s.inputs, step_of_oldest_flow hpick hflows⟩
  | some served =>
    obtain ⟨e, rest⟩ := served
    cases e with
    | rxAdvance k =>
      simp only [servedFlow, hpick] at h
      refine ⟨by simp [servedLink, hpick, eventLink, flowOf_link h], rest, ?_⟩
      rw [step_of_pick s hpick]
      exact congrArg Host.Outcome.next (rxAdvance_of_flowOf h)
    | transfer | rxBegin | setLinkSet | randSample | reset => simp [servedFlow, hpick] at h

/-- What a step can have been, from the event it picked and the link-read event it moved on. -/
theorem step_effect (h : step s = .next t) : StepEffect s t := by
  cases hflow : servedFlow s with
  | some f =>
    obtain ⟨hlink, rest, hstep⟩ := step_of_servedFlow hflow
    rw [hstep] at h
    cases h
    exact .advanced hflow hlink
  | none =>
    cases hpick : s.pick [] s.inputs with
    | none =>
      have hflows : s.flows = [] := by simpa [servedFlow, hpick] using hflow
      rw [step_of_idle hpick hflows] at h
      cases h
      exact .silent rfl rfl
    | some served =>
      obtain ⟨e, rest⟩ := served
      rw [step_of_pick s hpick] at h
      cases e with
      | transfer x =>
        rcases runTransfer_next h with ⟨i, hdec, hexec⟩ | ⟨_, rfl⟩
        · have hdecs : decode s.cfg.addrOrder x = .ok i := hdec
          exact .operation hpick (by simp only [servedLink, hpick, eventLink, hdecs]) hexec
        · exact .silent rfl rfl
      | rxBegin k bs =>
        simp only [runEvent] at h
        split at h
        · cases h; exact .began (by simp only [servedLink, hpick, eventLink])
        · nomatch h
      | rxAdvance k =>
        have hnone : s.flowOf k = none := by simpa only [servedFlow, hpick] using hflow
        cases h
        rw [rxAdvance_of_no_flow (s := { s with inputs := rest }) hnone]
        exact .silent rfl rfl
      | setLinkSet ks =>
        simp only [runEvent] at h
        split at h
        · nomatch h
        · cases h; exact .silent rfl rfl
      | randSample r => cases h; exact .silent rfl rfl
      | reset => cases h; exact .cleared hpick

/-- Settles O57: whatever the step was, it writes the buffer of the link it serves, or it is `RESET`. -/
theorem stepTouchesOneBuffer : Obligations.StepTouchesOneBuffer := by
  intro s t h hreset j hj
  cases step_effect h with
  | operation _ hlink hexec => exact (exec_bufOf_ne hexec (hlink ▸ hj) :)
  | began hlink => exact bufOf_setBuf_ne s _ fun hjk => hj (hjk ▸ hlink)
  | advanced _ hlink => exact rxAdvanceFlow_bufOf_ne _ _ fun hjk => hj (hjk ▸ hlink)
  | cleared hpick => exact absurd hpick (hreset _)
  | silent hbuf _ => exact congrArg (memGet · j) hbuf

/-! ### What a step emits (R224, R440, R441) -/

/-- What goes out between two states, each `LinkSend` to a member of the link set and with a whole header. -/
def Emits (s t : State) : Prop :=
  ∃ l : List Output, t.outputs = s.outputs ++ l ∧ ∀ k bs, Output.linkSend k bs ∈ l → k ∈ s.linkSet ∧ 9 ≤ bs.length

theorem Emits.nothing (h : t.outputs = s.outputs) : Emits s t :=
  ⟨[], by simp [h], by simp⟩

theorem Emits.one {o : Output} (h : t.outputs = s.outputs ++ [o])
    (ho : ∀ k bs, o = .linkSend k bs → k ∈ s.linkSet ∧ 9 ≤ bs.length) : Emits s t :=
  ⟨[o], h, fun k bs hmem => ho k bs (List.mem_singleton.1 hmem).symm⟩

theorem Emits.trans (hst : Emits s t) (hlinks : t.linkSet = s.linkSet) (htu : Emits t u) : Emits s u := by
  obtain ⟨l, hl, hsrc⟩ := hst
  obtain ⟨m, hm, hsrc'⟩ := htu
  refine ⟨l ++ m, by rw [hm, hl, List.append_assoc], fun k bs hmem => ?_⟩
  rcases List.mem_append.1 hmem with hmem | hmem
  · exact hsrc k bs hmem
  · exact hlinks ▸ hsrc' k bs hmem

/-- One packet sent on a link that `route` chose. -/
theorem emits_draw_send {n : Nat} {p : Bytes} (hk : k ∈ s.linkSet) (hp : 9 ≤ p.length) :
    Emits s ((s.draw n).2.emit (.linkSend k p)) := by
  refine .one (o := .linkSend k p) (by simp) fun j bs ho => ?_
  cases ho
  exact ⟨hk, hp⟩

theorem processPacket_emits (s : State) (p : Bytes) : Emits s (s.processPacket p).2 := by
  rcases processPacket_cases s p with ⟨_, heq⟩ | ⟨_, _, heq⟩ | ⟨_, _, _, heq⟩ | ⟨hp, _, k, hk, heq⟩ <;> rw [heq]
  · exact .nothing rfl
  · exact .one rfl nofun
  · exact .nothing rfl
  · exact emits_draw_send hk hp

theorem sendData_emits (s : State) (d : Addr) (pl : Bytes) : Emits s (s.sendData d pl).2 := by
  rcases sendData_cases s d pl with ⟨_, heq⟩ | ⟨_, _, heq⟩ | ⟨_, k, hk, heq⟩ <;> rw [heq]
  · exact .nothing rfl
  · exact .nothing rfl
  · exact emits_draw_send hk (by simp)

theorem route_outputs (s : State) : s.route.2.outputs = s.outputs := by
  rcases route_cases s with ⟨_, heq⟩ | ⟨_, _, heq⟩ <;> simp [heq]

theorem tryExtract_outputs (s : State) (k : LinkId) : (s.tryExtract k).2.outputs = s.outputs := by
  rcases tryExtract_cases s k with ⟨_, heq⟩ | ⟨_, heq⟩ <;> simp [heq]

theorem rxLoop_emits (s : State) (k : LinkId) (n : Nat) : Emits s (s.rxLoop k n).2 := by
  induction n generalizing s with
  | zero => exact .nothing rfl
  | succ n ih =>
    rcases rxLoop_succ s k n with ⟨_, heq⟩ | ⟨p, _, heq⟩
    · rw [heq]; exact .nothing rfl
    · have hframe := tryExtract_frame s k
      have hproc : Emits s ((s.tryExtract k).2.processPacket p).2 :=
        (Emits.nothing (tryExtract_outputs s k)).trans hframe.linkSet (processPacket_emits _ p)
      simp only at heq
      rw [heq]
      split
      · exact hproc.trans (hframe.trans (processPacket_frame _ p).1).linkSet (ih _)
      · exact hproc

theorem linkRead_emits (s : State) (k : LinkId) (bs : Bytes) : Emits s (s.linkRead k bs).2 :=
  rxLoop_emits (s.bufAppend k bs) k _

theorem exec_emits {i : Instr} (h : exec i s = .next t) : Emits s t := by
  obtain ⟨u, r, hu, rfl⟩ := exec_effect h
  have hemit : Emits s u := by
    cases hu with
    | unchanged => exact .nothing rfl
    | routed d => exact .nothing (route_outputs s)
    | processed p => exact processPacket_emits s p
    | sent d pl => exact sendData_emits s d pl
    | written => exact .nothing rfl
    | received _ bs => exact linkRead_emits s _ bs
  rwa [Emits, finish_outputs]

/-- A primitive step that attempts an extraction emits nothing (R421). -/
theorem rxAdvanceFlow_outputs_of_attempt (s : State) (hp : f.pending = none) :
    (s.rxAdvanceFlow f).outputs = s.outputs := by
  by_cases hc : 9 + ((s.bufOf f.link).headD 0).toNat ≤ (s.bufOf f.link).length
  · rw [rxAdvanceFlow_extracts s hp hc]; rfl
  · rw [rxAdvanceFlow_ends s hp (by omega)]; rfl

/-- A primitive step with a packet to process emits what processing it emits (R431). -/
theorem rxAdvanceFlow_outputs_of_packet (s : State) {p : Bytes} (hp : f.pending = some p) :
    (s.rxAdvanceFlow f).outputs = (s.processPacket p).2.outputs := by
  rw [rxAdvanceFlow_processes s hp]
  split <;> rfl

theorem rxAdvanceFlow_emits (s : State) (f : RxFlow) : Emits s (s.rxAdvanceFlow f) := by
  cases hp : f.pending with
  | none => exact .nothing (rxAdvanceFlow_outputs_of_attempt s hp)
  | some p =>
    rw [Emits, rxAdvanceFlow_outputs_of_packet s hp]
    exact processPacket_emits s p

/-- The events that wait have no influence on a draw. -/
theorem draw_setInputs (s : State) (es : List Event) (n : Nat) :
    ({ s with inputs := es }).draw n = ((s.draw n).1, { (s.draw n).2 with inputs := es }) := by
  simp only [State.draw]
  cases s.rand <;> rfl

theorem route_setInputs (s : State) (es : List Event) :
    ({ s with inputs := es }).route = (s.route.1, { s.route.2 with inputs := es }) := by
  simp only [State.route, draw_setInputs]
  rw [show State.snapshot { s with inputs := es } = s.snapshot from rfl]
  cases s.snapshot <;> rfl

theorem sendRouted_setInputs (s : State) (es : List Event) (bs : Bytes) :
    ({ s with inputs := es }).sendRouted bs = ((s.sendRouted bs).1, { (s.sendRouted bs).2 with inputs := es }) := by
  simp only [State.sendRouted, route_setInputs]
  rcases s.route with ⟨_ | _, _⟩ <;> rfl

/-- The events that wait have no influence on the processing of a packet. -/
theorem processPacket_setInputs (s : State) (es : List Event) (p : Bytes) :
    ({ s with inputs := es }).processPacket p =
      ((s.processPacket p).1, { (s.processPacket p).2 with inputs := es }) := by
  simp only [State.processPacket, sendRouted_setInputs]
  split
  · rfl
  · split
    · rfl
    · split
      · rfl
      · rcases s.sendRouted p with ⟨_ | _, _⟩ <;> rfl

theorem step_emits (h : step s = .next t) : Emits s t := by
  cases step_effect h with
  | operation _ _ hexec => exact (exec_emits hexec :)
  | began => exact .nothing rfl
  | advanced => exact rxAdvanceFlow_emits _ _
  | cleared => exact .nothing rfl
  | silent _ hout => exact .nothing hout

/-- Without an operation and without a packet to process, a step emits nothing. -/
theorem step_outputs_of_quiet (h : step s = .next t) (hx : ∀ x rest, s.pick [] s.inputs ≠ some (.transfer x, rest))
    (hf : ∀ f, servedFlow s = some f → f.pending = none) : t.outputs = s.outputs := by
  cases step_effect h with
  | operation hpick => exact absurd hpick (hx _ _)
  | began => rfl
  | advanced hflow => exact rxAdvanceFlow_outputs_of_attempt _ (hf _ hflow)
  | cleared => rfl
  | silent _ hout => exact hout

/-- A step that moves on an event with a packet to process emits what processing that packet emits. -/
theorem step_outputs_of_packet {p : Bytes} (h : step s = .next t) (hf : servedFlow s = some f)
    (hp : f.pending = some p) : t.outputs = (s.processPacket p).2.outputs := by
  obtain ⟨_, rest, hstep⟩ := step_of_servedFlow hf
  rw [hstep] at h
  cases h
  rw [rxAdvanceFlow_outputs_of_packet _ hp, processPacket_setInputs]

/-- Settles O54: the outputs of a step are those of the one thing it was. -/
theorem stepOutputsHaveTheirSource : Obligations.StepOutputsHaveTheirSource := by
  intro s t h
  obtain ⟨l, hl, hsends⟩ := step_emits h
  refine ⟨l, hl, hsends, fun hx hf => ?_, fun f p hf hp => ?_⟩
  · exact List.append_right_eq_self.1 (hl.symm.trans (step_outputs_of_quiet h hx hf))
  · exact ⟨_, rfl, (step_outputs_of_packet h hf hp).trans (finish_outputs _ _).symm⟩

end Sys2Proof.Machine
end

section
/-! Appends of one link keep their order (R221): while the oldest one is held the later ones wait, and the events of other
links pass them all (R222; log entries 8, 9, 10). -/

namespace Sys2Proof.Machine

variable {s : State} {e : Event} {i : Instr} {k l : LinkId} {n : Nat} {w : List LinkId} {bs : Bytes}

/-- Where no room is left for an append, or a link-read event is in progress on its link, it is held (R420, R221). -/
theorem eventReady_linkRx_of_held
    (h : (∃ c, s.cfg.bufCap = some c ∧ c < (s.bufOf k).length + bs.length) ∨ s.flowOf k ≠ none) :
    s.eventReady w (.transfer (.linkRx k bs)) = false := by
  change (s.linkFree k && (s.hasRoom k bs.length && decide (k ∉ w))) = false
  rcases h with ⟨c, hcap, hc⟩ | hflow
  · have hroom : s.hasRoom k bs.length = false := by
      rw [Bool.eq_false_iff, ne_eq, hasRoom_iff]
      exact fun hle => absurd (hle c hcap) (not_le.2 hc)
    simp [hroom]
  · simp [State.linkFree, hflow]

/-- An append is on the link that its operation names. -/
theorem link?_of_appendOf (h : appendOf i = some (l, n)) : i.link? = some l := by
  cases i with
  | bufAppend | linkRx | pktHeader => cases h; rfl
  | _ => nomatch h

theorem appendReady_of_waiting (h : k ∈ w) : s.appendReady w k n = false := by
  simp [State.appendReady, h]

/-- An append whose link has an earlier one waiting is not enabled, whatever room there is (R221). -/
theorem eventReady_of_append_waiting (he : k ∈ s.eventAppends e) (hw : k ∈ w) : s.eventReady w e = false := by
  cases e with
  | transfer x =>
    cases hdec : decode s.cfg.addrOrder x with
    | error => simp [State.eventAppends, hdec] at he
    | ok i =>
      simp only [State.eventAppends, hdec, Option.mem_toList, Option.map_eq_some_iff] at he
      obtain ⟨⟨l, n⟩, happ, rfl⟩ := he
      simp [State.eventReady, hdec, State.instrReady, happ, appendReady_of_waiting hw]
  | rxBegin l bs =>
    obtain rfl : k = l := List.mem_singleton.1 he
    simp [State.eventReady, appendReady_of_waiting hw]
  | rxAdvance | setLinkSet | randSample | reset => nomatch he

/-- An operation off the waiting links, with no event in progress on its link and with room, is enabled. -/
theorem instrReady_of (hfree : ∀ j, i.link? = some j → s.flowOf j = none) (hw : ∀ j, i.link? = some j → j ∉ w)
    (hroom : ∀ j n, appendOf i = some (j, n) → s.hasRoom j n = true) : s.instrReady w i = true := by
  simp only [State.instrReady, Bool.and_eq_true]
  constructor
  · cases hl : i.link? with
    | none => rfl
    | some j => simp [State.linkFree, hfree j hl]
  · cases ha : appendOf i with
    | none => rfl
    | some a =>
      obtain ⟨j, n⟩ := a
      simp [State.appendReady, hroom j n ha, hw j (link?_of_appendOf ha)]

theorem pick_cons_of_not_ready {rest : List Event} (h : s.eventReady w e = false) :
    s.pick w (e :: rest) = (s.pick (s.eventAppends e ++ w) rest).map fun r => (r.1, e :: r.2) := by
  simp only [State.pick, h]
  cases s.pick (s.eventAppends e ++ w) rest <;> rfl

/-- A step passes over every append that waits behind an earlier one of its link. -/
theorem pick_append_of_waiting {later : List Event} (rest : List Event) (hlater : ∀ e ∈ later, s.eventAppends e = [k])
    (hw : k ∈ w) :
    s.pick w (later ++ rest) =
      (s.pick (List.replicate later.length k ++ w) rest).map fun r => (r.1, later ++ r.2) := by
  induction later generalizing w with
  | nil => simp
  | cons e later ih =>
    have he : s.eventAppends e = [k] := hlater e (by simp)
    have hready : s.eventReady w e = false := eventReady_of_append_waiting (k := k) (by simp [he]) hw
    have hrest := ih (w := k :: w) (fun x hx => hlater x (by simp [hx])) (by simp)
    rw [List.cons_append, pick_cons_of_not_ready hready, he, List.singleton_append, hrest, Option.map_map,
      List.length_cons, List.replicate_succ', List.append_assoc, List.singleton_append]
    rfl

/-- The same with the held append itself in front. -/
theorem pick_held_append {later : List Event} (rest : List Event) (hready : s.eventReady [] e = false)
    (he : s.eventAppends e = [k]) (hlater : ∀ e ∈ later, s.eventAppends e = [k]) :
    s.pick [] (e :: (later ++ rest)) =
      (s.pick (List.replicate (later.length + 1) k) rest).map fun r => (r.1, e :: (later ++ r.2)) := by
  rw [pick_cons_of_not_ready hready, he, pick_append_of_waiting rest hlater (by simp), Option.map_map,
    List.replicate_succ']
  rfl

/-- Each way bytes arrive on a link is an append to it (R112, R311). -/
theorem eventAppends_of_arrival (h : ∃ bs', e = .transfer (.linkRx k bs') ∨ e = .rxBegin k bs' ∨
      e = .transfer (.cmd 0x7#4 [.link k, .bytes bs'.length bs']) ∨
      e = .transfer (.cmd 0xB#4 [.link k, .bytes bs'.length bs']) ∨ ∃ w, e = .transfer (.header k w)) :
    s.eventAppends e = [k] := by
  obtain ⟨bs', rfl | rfl | rfl | rfl | ⟨w, rfl⟩⟩ := h
  · rfl
  · rfl
  · have hdec : decode s.cfg.addrOrder (.cmd 0x7#4 [.link k, .bytes bs'.length bs']) = .ok (.bufAppend k bs') :=
      if_pos rfl
    simp only [State.eventAppends, hdec, appendOf]; rfl
  · have hdec : decode s.cfg.addrOrder (.cmd 0xB#4 [.link k, .bytes bs'.length bs']) = .ok (.linkRx k bs') :=
      if_pos rfl
    simp only [State.eventAppends, hdec, appendOf]; rfl
  · rfl

theorem runTransfer_of_decode {x : Transfer} (hdec : decode s.cfg.addrOrder x = .ok i) (hwf : i.wf s.cfg = true) :
    runTransfer x s = exec i s := by
  simp only [runTransfer, hdec, runInstr, hwf, if_true]

/-- Settles O52: the held append and those behind it put only their own link on the waiting list, so an operation of
another link is the first that is enabled. -/
theorem laterAppendsWaitBehindHeldOne : Obligations.LaterAppendsWaitBehindHeldOne := by
  intro s k bs later rest hheld hlater hin
  have hpick := pick_held_append rest (eventReady_linkRx_of_held hheld) rfl
    fun e he => eventAppends_of_arrival (s := s) (hlater e he)
  rw [← hin] at hpick
  refine ⟨fun hrest => ?_, fun x more i hrest hdec hwf hlink hfree hroom => ?_⟩
  · subst hrest
    exact ⟨fun hflows => step_of_idle hpick hflows, fun f fs hflows => step_of_oldest_flow hpick hflows⟩
  · subst hrest
    have hready : s.eventReady (List.replicate (later.length + 1) k) (.transfer x) = true := by
      simp only [State.eventReady, hdec]
      refine instrReady_of hfree (fun j hj hmem => ?_) fun j n ha => (hasRoom_iff s j n).2 (hroom j n ha)
      obtain rfl : j = k := List.eq_of_mem_replicate hmem
      exact hlink hj
    have hserved : s.pick [] s.inputs = some (.transfer x, .transfer (.linkRx k bs) :: (later ++ more)) := by
      rw [hpick, State.pick, if_pos hready]
      rfl
    rw [step_of_pick s hserved]
    exact runTransfer_of_decode (s := { s with inputs := _ }) hdec hwf

end Sys2Proof.Machine
end

section
/-! What `CREATE_PKT` and `TRY_EXTRACT` return (R303, R410, R421): the response read back to the framer's or the
reassembler's answer, and that answer is a well-formed packet. -/

namespace Sys2Proof.Machine

variable {s t : State} {k : LinkId} {p : Bytes}

/-- The length byte bounds a well-formed packet by `HEADER_SIZE` and `MAX_PACKET` (R303). -/
theorem wellFormed_length_bounds (h : PacketWellFormed p) : 9 ≤ p.length ∧ p.length ≤ 264 := by
  obtain ⟨hheader, hlen⟩ := h
  have hbyte : (p.headD 0).toNat < 256 := (p.headD 0).isLt
  simp only [headerSize] at hheader hlen
  omega

/-- A payload of at most 255 bytes is counted by the length byte without loss (R410). -/
theorem wellFormed_encodeHeader_append (o : AddrOrder) (src dst : Addr) {pl : Bytes} (h : pl.length ≤ 255) :
    PacketWellFormed (encodeHeader o (BitVec.ofNat 8 pl.length) src dst ++ pl) := by
  have hlen : (encodeHeader o (BitVec.ofNat 8 pl.length) src dst ++ pl).length = 9 + pl.length := by simp
  have hhead : (encodeHeader o (BitVec.ofNat 8 pl.length) src dst ++ pl).headD 0 = BitVec.ofNat 8 pl.length := rfl
  have hcount : (BitVec.ofNat 8 pl.length).toNat = pl.length := Nat.mod_eq_of_lt (by omega)
  rw [PacketWellFormed, hlen, hhead, hcount, headerSize]
  omega

theorem createPacket_wellFormed {o : AddrOrder} {src dst : Addr} {pl : Bytes}
    (h : createPacket o src dst pl = .ok p) : PacketWellFormed p := by
  rcases createPacket_cases o src dst pl with ⟨_, heq⟩ | ⟨hle, heq⟩ <;> rw [heq] at h
  · nomatch h
  · cases h
    exact wellFormed_encodeHeader_append o src dst hle

theorem tryExtract_wellFormed (h : (s.tryExtract k).1 = some p) : PacketWellFormed p := by
  rcases tryExtract_cases s k with ⟨_, heq⟩ | ⟨hcomplete, heq⟩ <;> rw [heq] at h
  · nomatch h
  · cases h
    exact take_wellFormed hcomplete

/-- The response an operation adds is its result, with status `OK` (R600), exactly where it ended with one. -/
theorem finish_responses_eq_ok_iff {r : Except CoreError Result} {v : Result} :
    (s.finish r).responses = s.responses ++ [.ok v] ↔ r = .ok v := by
  cases r <;> simp

/-- The bytes `CREATE_PKT` returns are those of `createPacket` at the node's own address (R410). -/
theorem createPacket_of_response {dst : Addr} {pl : Bytes} (h : exec (.createPkt dst pl) s = .next t)
    (hresp : t.responses = s.responses ++ [.ok (.bytes p)]) :
    createPacket s.cfg.addrOrder s.localAddr dst pl = .ok p := by
  cases h
  have hmap := finish_responses_eq_ok_iff.1 hresp
  cases hc : createPacket s.cfg.addrOrder s.localAddr dst pl with
  | error e => simp [hc, Except.map] at hmap
  | ok q => simpa [hc, Except.map] using hmap

/-- The packet `TRY_EXTRACT` returns is that of the extraction attempt (R421). -/
theorem tryExtract_of_response (h : exec (.tryExtract k) s = .next t)
    (hresp : t.responses = s.responses ++ [.ok (.extracted (some p))]) : (s.tryExtract k).1 = some p := by
  cases h
  rw [← (tryExtract_frame s k).responses] at hresp
  simpa using hresp

/-- Settles O24: both answers are well-formed packets, and a well-formed packet has 9 to 264 bytes. -/
theorem returnedPacketsAreWellFormed : Obligations.ReturnedPacketsAreWellFormed := by
  intro s t p
  constructor
  · intro dst pl h hresp
    have hwf := createPacket_wellFormed (createPacket_of_response h hresp)
    exact ⟨hwf, wellFormed_length_bounds hwf⟩
  · intro k h hresp
    have hwf := tryExtract_wellFormed (tryExtract_of_response h hresp)
    exact ⟨hwf, wellFormed_length_bounds hwf⟩

end Sys2Proof.Machine
end

section
/-! The Header Codec on one address (R400, R401): the response of `ENC_ADDR`, the bytes it holds under each `ADDR_ORDER`,
and their inverse. -/

namespace Sys2Proof.Machine

@[simp] theorem encodeAddress_be (a : Addr) : encodeAddress .be a =
    [a.extractLsb' 24 8, a.extractLsb' 16 8, a.extractLsb' 8 8, a.extractLsb' 0 8] := rfl

@[simp] theorem encodeAddress_le (a : Addr) : encodeAddress .le a =
    [a.extractLsb' 0 8, a.extractLsb' 8 8, a.extractLsb' 16 8, a.extractLsb' 24 8] := rfl

/-- Decoding inverts encoding: either order puts the four bytes back at their own places (R400, R401). -/
@[simp] theorem decodeAddress_encodeAddress (o : AddrOrder) (a : Addr) :
    decodeAddress o (encodeAddress o a) = .ok a := by
  cases o with
  | be => exact congrArg Except.ok (append4_of_bytes a)
  | le => exact congrArg Except.ok (append4_of_bytes a)

/-- `ENC_ADDR` changes nothing but the responses (R400). -/
theorem exec_encAddr (a : Addr) (s : State) :
    exec (.encAddr a) s = .next (s.respond (.ok (.bytes (encodeAddress s.cfg.addrOrder a)))) := rfl

/-- Settles O14: the response holds the encoding under the node's `ADDR_ORDER`, which decoding inverts. -/
theorem encodeAddressResult : Obligations.EncodeAddressResult := by
  intro s a
  refine ⟨fun hbe => ?_, fun hle => ?_, decodeAddress_encodeAddress s.cfg.addrOrder a⟩
  · rw [exec_encAddr, hbe, encodeAddress_be, State.respond]
  · rw [exec_encAddr, hle, encodeAddress_le, State.respond]

end Sys2Proof.Machine
end

section
/-! The Packet Framer's `CREATE_PKT` (R410): the layout of a framed packet, and the response of the operation on each side
of the payload limit. -/

namespace Sys2Proof.Machine

variable {s : State} {dst : Addr} {pl : Bytes}

/-- A framed packet holds its length byte, source, destination and payload in this order (R301, R410). -/
theorem encodeHeader_append (o : AddrOrder) (len : Byte) (src dst : Addr) (pl : Bytes) :
    encodeHeader o len src dst ++ pl = [len] ++ encodeAddress o src ++ encodeAddress o dst ++ pl := rfl

/-- `CREATE_PKT` ends with the framer's answer at the node's own address, and changes nothing else (R410). -/
theorem exec_createPkt (s : State) (dst : Addr) (pl : Bytes) : exec (.createPkt dst pl) s =
    .next (s.finish ((createPacket s.cfg.addrOrder s.localAddr dst pl).map .bytes)) := rfl

theorem exec_createPkt_of_le (h : pl.length ≤ 255) : exec (.createPkt dst pl) s = .next (s.respond
    (.ok (.bytes (encodeHeader s.cfg.addrOrder (BitVec.ofNat 8 pl.length) s.localAddr dst ++ pl)))) := by
  rcases createPacket_cases s.cfg.addrOrder s.localAddr dst pl with ⟨hlarge, _⟩ | ⟨_, hpacket⟩
  · omega
  · rw [exec_createPkt, hpacket, Except.map, finish_ok]

theorem exec_createPkt_of_lt (h : 255 < pl.length) : exec (.createPkt dst pl) s =
    .next (s.respond (.error (.payloadTooLarge pl.length))) := by
  rcases createPacket_cases s.cfg.addrOrder s.localAddr dst pl with ⟨_, herror⟩ | ⟨hfits, _⟩
  · rw [exec_createPkt, herror, Except.map, finish_error]
  · omega

/-- Settles O19: the packet is the nine-byte header at the node's own address followed by the payload, and above 255 bytes
the one response is `PayloadTooLarge`. -/
theorem createPacketResult : Obligations.CreatePacketResult := by
  intro s dst pl
  refine ⟨fun hfits => ⟨_, encodeHeader_append .., ?_, exec_createPkt_of_le hfits⟩, exec_createPkt_of_lt⟩
  rw [List.length_append, encodeHeader_length]

end Sys2Proof.Machine
end

section
/-! The two operations of the Stream Reassembler (R420, R421): what `BUF_APPEND` does where it is enabled, what
`TRY_EXTRACT` does on each side of a complete packet, and the occupancy after `None` (R425). -/

namespace Sys2Proof.Machine

variable {s t : State} {k : LinkId} {p rest bs : Bytes}

/-- Responses and buffers are written independently of each other. -/
theorem setBuf_respond (s : State) (r : Response) (k : LinkId) (b : Bytes) :
    (s.respond r).setBuf k b = (s.setBuf k b).respond r := rfl

/-- An append that is enabled puts the bytes at the tail of its buffer and adds its response (R420). -/
theorem exec_bufAppend_of_room (h : s.hasRoom k bs.length = true) :
    exec (.bufAppend k bs) s = .next ((s.setBuf k (s.bufOf k ++ bs)).respond (.ok .done)) := by
  change execBufAppend k bs s = _
  rw [execBufAppend, if_pos h, bufAppend_eq, complete_eq]

/-- An attempt on a complete packet takes exactly its bytes off the head and adds its response (R209, R421). -/
theorem exec_tryExtract_of_complete (h : 9 + ((s.bufOf k).headD 0).toNat ≤ (s.bufOf k).length) :
    exec (.tryExtract k) s =
      .next ((s.setBuf k ((s.bufOf k).drop (9 + ((s.bufOf k).headD 0).toNat))).respond
        (.ok (.extracted (some ((s.bufOf k).take (9 + ((s.bufOf k).headD 0).toNat)))))) := by
  change Host.Outcome.next ((s.tryExtract k).2.complete (.extracted (s.tryExtract k).1)) = _
  rw [tryExtract_some s h, complete_eq]

/-- Settles O23: the two clauses are the two cases of an attempt, and the memory is that of the one write it makes. -/
theorem tryExtractResult : Obligations.TryExtractResult := by
  intro s k b l
  refine ⟨exec_tryExtract_of_incomplete, fun hcomplete =>
    ⟨_, exec_tryExtract_of_complete hcomplete, ?_, bufOf_setBuf_same s k _, fun j hj => bufOf_setBuf_ne s _ hj⟩⟩
  rw [List.length_take, Nat.min_eq_left hcomplete]

/-- `None` is the answer only on an incomplete packet, and then the attempt has changed nothing else (R421). -/
theorem incomplete_of_response (h : exec (.tryExtract k) s = .next t)
    (hresp : t.responses = s.responses ++ [.ok (.extracted none)]) :
    (s.bufOf k).length < 9 + ((s.bufOf k).headD 0).toNat ∧ t = s.respond (.ok (.extracted none)) := by
  rcases lt_or_ge (s.bufOf k).length (9 + ((s.bufOf k).headD 0).toNat) with hinc | hcomplete
  · rw [exec_tryExtract_of_incomplete (.inr hinc)] at h
    exact ⟨hinc, (Host.Outcome.next.inj h).symm⟩
  · rw [exec_tryExtract_of_complete hcomplete] at h
    cases h
    simp at hresp

/-- Settles O30: an incomplete packet lacks at least one of the at most 264 bytes its length byte declares. -/
theorem occupancyBound : Obligations.OccupancyBound := by
  intro s t u k b hattempt hresp happend
  obtain ⟨hinc, rfl⟩ := incomplete_of_response hattempt hresp
  obtain ⟨_, rfl⟩ := execBufAppend_next happend
  have hbyte : ((s.bufOf k).headD 0).toNat < 256 := ((s.bufOf k).headD 0).isLt
  have hbound : (s.bufOf k).length ≤ 263 := by omega
  refine ⟨hbound, ?_⟩
  rw [bufOf_finish, bufOf_setBuf_same, List.length_append]
  exact Nat.succ_le_succ hbound

end Sys2Proof.Machine
end

section
/-! Well-formed packets inside a stream (R303, R422, R423): the length byte at the head says where the first packet ends,
so an initial part of a packet that lacks bytes is incomplete, and a stream is cut into packets in one way only. -/

namespace Sys2Proof.Machine

variable {p q a b rest : Bytes} {ps qs : List Bytes}

theorem wellFormed_length (h : PacketWellFormed p) : p.length = 9 + (p.headD 0).toNat := by
  obtain ⟨hheader, hlen⟩ := h
  rw [headerSize] at hheader hlen
  omega

/-- Bytes after the first leave the length byte where it is. -/
theorem headD_append (h : a ≠ []) (b : Bytes) : (a ++ b).headD 0 = a.headD 0 := by
  cases a with
  | nil => exact absurd rfl h
  | cons x a => rfl

theorem wellFormed_ne_nil (h : PacketWellFormed p) : p ≠ [] := by
  rintro rfl
  exact absurd h.1 (by decide)

/-- The length byte at the head of a stream gives the length of its first packet. -/
theorem head_packet_length (h : PacketWellFormed p) (rest : Bytes) :
    9 + ((p ++ rest).headD 0).toNat = p.length := by
  rw [headD_append (wellFormed_ne_nil h), wellFormed_length h]

/-- An initial part of a well-formed packet that lacks some of its bytes is incomplete (R422). -/
theorem incomplete_of_wellFormed_append (h : PacketWellFormed (a ++ b)) (hb : b ≠ []) :
    a.length < 9 + (a.headD 0).toNat := by
  have hpos : 0 < b.length := List.length_pos_iff.2 hb
  have hlen := wellFormed_length h
  rw [List.length_append] at hlen
  by_cases ha : a = []
  · subst ha
    exact Nat.add_pos_left (by decide) _
  · rw [headD_append ha] at hlen
    omega

/-- Two streams that are equal begin with the same packet. -/
theorem wellFormed_append_inj (hp : PacketWellFormed p) (hq : PacketWellFormed q) (h : p ++ a = q ++ b) :
    p = q ∧ a = b := by
  refine List.append_inj h ?_
  rw [← head_packet_length hp a, ← head_packet_length hq b, h]

/-- Packets at the head of a stream of packets are its first ones, and the other packets follow them (R423). -/
theorem packets_of_flatten_append (hqs : ∀ q ∈ qs, PacketWellFormed q) (hps : ∀ p ∈ ps, PacketWellFormed p)
    (h : qs.flatten ++ rest = ps.flatten) : ∃ later, ps = qs ++ later ∧ rest = later.flatten := by
  induction qs generalizing ps with
  | nil => exact ⟨ps, rfl, h⟩
  | cons q qs ih =>
    rw [List.forall_mem_cons] at hqs
    obtain ⟨hq, hqs⟩ := hqs
    cases ps with
    | nil => exact absurd (List.append_eq_nil_iff.1 (List.append_eq_nil_iff.1 h).1).1 (wellFormed_ne_nil hq)
    | cons p ps =>
      rw [List.forall_mem_cons] at hps
      obtain ⟨hp, hps⟩ := hps
      rw [List.flatten_cons, List.flatten_cons, List.append_assoc] at h
      obtain ⟨rfl, htail⟩ := wellFormed_append_inj hq hp h
      obtain ⟨later, rfl, hrest⟩ := ih hqs hps htail
      exact ⟨later, rfl, hrest⟩

end Sys2Proof.Machine
end

section
/-! Streams through the Reassembler (R422 to R424): what a list of its operations keeps, what attempts make of a buffer
that holds whole packets, and a packet fed in pieces. -/

namespace Sys2Proof.Machine

variable {s t : State} {k l : LinkId} {i : Instr} {is js : List Instr} {p rest bs : Bytes} {rs : List Response}

theorem execAll_cons_next : execAll (i :: is) s = .next t ↔ ∃ m, exec i s = .next m ∧ execAll is m = .next t := by
  rw [execAll]
  cases exec i s <;> simp

theorem execAll_append_of_next (h : execAll is s = .next t) : execAll (is ++ js) s = execAll js t := by
  rw [execAll_append, h]

/-- Operations leave the node as it was for every link that none of them names (R222). -/
theorem agreeOn_of_execAll (h : execAll is s = .next t) (hl : ∀ i ∈ is, i.link? ≠ some l) : AgreeOn l s t := by
  induction is generalizing s with
  | nil => cases h; exact ⟨rfl, rfl⟩
  | cons i is ih =>
    obtain ⟨m, him, hmt⟩ := execAll_cons_next.1 h
    rw [List.forall_mem_cons] at hl
    have hfirst := agreeOn_of_exec him hl.1
    have hothers := ih hmt hl.2
    exact ⟨hothers.cfg.trans hfirst.cfg, hothers.buf.trans hfirst.buf⟩

/-- From `s` to `t` the Reassembler took in the bytes `bs` on link `k` and returned the responses `rs`: the packets in
them and the buffer they leave are the stream, and each packet is well-formed (R303, R424). -/
structure Reassembles (k : LinkId) (bs : Bytes) (rs : List Response) (s t : State) : Prop where
  responses : t.responses = s.responses ++ rs
  stream : (extractedPackets rs).flatten ++ t.bufOf k = s.bufOf k ++ bs
  wellFormed : ∀ p ∈ extractedPackets rs, PacketWellFormed p

theorem Reassembles.refl (k : LinkId) (s : State) : Reassembles k [] [] s s where
  responses := (List.append_nil _).symm
  stream := (List.append_nil _).symm
  wellFormed := by simp [extractedPackets]

theorem Reassembles.trans {m : State} {cs : Bytes} {qs : List Response} (h : Reassembles k bs rs s m)
    (g : Reassembles k cs qs m t) : Reassembles k (bs ++ cs) (rs ++ qs) s t where
  responses := by rw [g.responses, h.responses, List.append_assoc]
  stream := by
    rw [extractedPackets_append, List.flatten_append, List.append_assoc, g.stream, ← List.append_assoc, h.stream,
      List.append_assoc]
  wellFormed := by
    rw [extractedPackets_append, List.forall_mem_append]
    exact ⟨h.wellFormed, g.wellFormed⟩

/-- An append moves its bytes to the tail, an attempt moves a packet from the head to the responses (R420, R421). -/
theorem exec_reassembles (hi : reassemblerOp k i = true) (h : exec i s = .next t) :
    ∃ rs, Reassembles k (appendedBytes [i]) rs s t := by
  cases i with
  | bufAppend j bs =>
    obtain rfl : j = k := beq_iff_eq.1 hi
    obtain ⟨_, rfl⟩ := execBufAppend_next h
    refine ⟨[.ok .done], rfl, ?_, by simp [extractedPackets]⟩
    rw [bufOf_finish, bufOf_setBuf_same]
    simp [extractedPackets, appendedBytes]
  | tryExtract j =>
    obtain rfl : j = k := beq_iff_eq.1 hi
    rcases lt_or_ge (s.bufOf j).length (9 + ((s.bufOf j).headD 0).toNat) with hinc | hcomplete
    · rw [exec_tryExtract_of_incomplete (.inr hinc)] at h
      cases h
      exact ⟨[.ok (.extracted none)], rfl, (List.append_nil _).symm, by simp [extractedPackets]⟩
    · rw [exec_tryExtract_of_complete hcomplete] at h
      cases h
      refine ⟨[.ok (.extracted (some _))], rfl, ?_, ?_⟩
      · rw [bufOf_respond, bufOf_setBuf_same]
        simp [extractedPackets, appendedBytes]
      · simpa [extractedPackets] using take_wellFormed hcomplete
  | _ => nomatch hi

theorem execAll_reassembles (his : ∀ i ∈ is, reassemblerOp k i = true) (h : execAll is s = .next t) :
    ∃ rs, Reassembles k (appendedBytes is) rs s t := by
  induction is generalizing s with
  | nil => cases h; exact ⟨[], .refl k _⟩
  | cons i is ih =>
    obtain ⟨m, him, hmt⟩ := execAll_cons_next.1 h
    rw [List.forall_mem_cons] at his
    obtain ⟨rs, hfirst⟩ := exec_reassembles his.1 him
    obtain ⟨qs, hothers⟩ := ih his.2 hmt
    have happended : appendedBytes (i :: is) = appendedBytes [i] ++ appendedBytes is := by simp [appendedBytes]
    exact ⟨rs ++ qs, happended ▸ hfirst.trans hothers⟩

/-- Settles O29: the stream equation holds of one operation and is kept along a list of them. -/
theorem streamConservation : Obligations.StreamConservation := by
  intro s t k is his h
  obtain ⟨rs, hrun⟩ := execAll_reassembles his h
  rw [hrun.responses, List.drop_left]
  exact hrun.stream

/-- With unbounded buffers every operation of the Reassembler completes (R420). -/
theorem exec_reassemblerOp_next (hcap : s.cfg.bufCap = none) (hi : reassemblerOp k i = true) :
    ∃ t, exec i s = .next t := by
  cases i with
  | bufAppend j bs =>
    have hroom : s.hasRoom j bs.length = true := by rw [State.hasRoom, hcap]
    exact ⟨_, exec_bufAppend_of_room hroom⟩
  | tryExtract j => exact ⟨_, rfl⟩
  | _ => nomatch hi

theorem execAll_reassemblerOp_next (hcap : s.cfg.bufCap = none) (his : ∀ i ∈ is, reassemblerOp k i = true) :
    ∃ t, execAll is s = .next t := by
  induction is generalizing s with
  | nil => exact ⟨s, rfl⟩
  | cons i is ih =>
    rw [List.forall_mem_cons] at his
    obtain ⟨m, him⟩ := exec_reassemblerOp_next hcap his.1
    obtain ⟨t, hmt⟩ := ih ((congrArg Config.bufCap (exec_cfg him)).trans hcap) his.2
    exact ⟨t, execAll_cons_next.2 ⟨m, him, hmt⟩⟩

/-- An attempt on a buffer that begins with a well-formed packet takes off that packet (R421). -/
theorem exec_tryExtract_of_packet (hp : PacketWellFormed p) (h : s.bufOf k = p ++ rest) :
    exec (.tryExtract k) s = .next ((s.setBuf k rest).respond (.ok (.extracted (some p)))) := by
  have hlen : 9 + ((s.bufOf k).headD 0).toNat = p.length := h ▸ head_packet_length hp rest
  have hcomplete : 9 + ((s.bufOf k).headD 0).toNat ≤ (s.bufOf k).length := by
    rw [hlen, h, List.length_append]
    exact Nat.le_add_right ..
  rw [exec_tryExtract_of_complete hcomplete, hlen, h, List.take_left, List.drop_left]

/-- An attempt on an empty buffer gives `None` (R421). -/
theorem exec_tryExtract_of_empty (h : s.bufOf k = []) :
    exec (.tryExtract k) s = .next (s.respond (.ok (.extracted none))) :=
  exec_tryExtract_of_incomplete (.inl (by simp [h]))

/-- Enough attempts on a buffer that holds whole packets return them in order and leave it empty (R423). -/
theorem attempts_return_packets {ps : List Bytes} (hps : ∀ p ∈ ps, PacketWellFormed p) {n : Nat} (hn : ps.length ≤ n)
    (h : s.bufOf k = ps.flatten) :
    ∃ t rs, execAll (List.replicate n (.tryExtract k)) s = .next t ∧ t.responses = s.responses ++ rs ∧
      extractedPackets rs = ps ∧ t.bufOf k = [] := by
  induction n generalizing s ps with
  | zero =>
    obtain rfl : ps = [] := List.eq_nil_of_length_eq_zero (Nat.le_zero.1 hn)
    exact ⟨s, [], rfl, (List.append_nil _).symm, rfl, h⟩
  | succ n ih =>
    cases ps with
    | nil =>
      obtain ⟨t, rs, hrun, hresp, hpackets, hbuf⟩ :=
        ih (s := s.respond (.ok (.extracted none))) hps (Nat.zero_le n) h
      refine ⟨t, .ok (.extracted none) :: rs, execAll_cons_next.2 ⟨_, exec_tryExtract_of_empty h, hrun⟩, ?_,
        hpackets, hbuf⟩
      rw [hresp, respond_responses, List.append_assoc, List.singleton_append]
    | cons p ps =>
      rw [List.forall_mem_cons] at hps
      obtain ⟨hp, hps⟩ := hps
      obtain ⟨t, rs, hrun, hresp, hpackets, hbuf⟩ :=
        ih (s := (s.setBuf k ps.flatten).respond (.ok (.extracted (some p)))) hps (Nat.le_of_succ_le_succ hn)
          (bufOf_setBuf_same s k _)
      refine ⟨t, .ok (.extracted (some p)) :: rs,
        execAll_cons_next.2 ⟨_, exec_tryExtract_of_packet hp h, hrun⟩, ?_, congrArg (p :: ·) hpackets, hbuf⟩
      rw [hresp, respond_responses, setBuf_responses, List.append_assoc, List.singleton_append]

/-- Settles O28: by conservation the packets out and the buffer are the packets in, so what is out is the first of them
and the buffer holds the others; the attempts at the end return those. -/
theorem concatenatedPackets : Obligations.ConcatenatedPackets := by
  intro s k ps is hempty hps hcap his hstream
  obtain ⟨t, hrun⟩ := execAll_reassemblerOp_next hcap his
  obtain ⟨rs, hresp, hconserved, hwf⟩ := execAll_reassembles his hrun
  rw [hempty, List.nil_append, hstream] at hconserved
  obtain ⟨later, rfl, hbuf⟩ := packets_of_flatten_append hwf hps hconserved
  rw [List.forall_mem_append] at hps
  have hmany : later.length ≤ (extractedPackets rs ++ later).length := by simp
  obtain ⟨u, qs, hattempts, hresp', hlater, hbuf'⟩ := attempts_return_packets hps.2 hmany hbuf
  refine ⟨⟨t, hrun, ?_⟩, u, (execAll_append_of_next hrun).trans hattempts, ?_, hbuf', exec_tryExtract_of_empty hbuf'⟩
  · rw [hresp, List.drop_left]
    exact ⟨later, rfl⟩
  · rw [hresp', hresp, List.append_assoc, List.drop_left, extractedPackets_append, hlater]

/-- A piece that leaves the packet incomplete stays in the buffer, and the attempt after it gives `None` (R422). -/
theorem feed_incomplete (hroom : s.hasRoom k bs.length = true)
    (hinc : (s.bufOf k ++ bs).length < 9 + ((s.bufOf k ++ bs).headD 0).toNat) :
    ∃ m, execAll [.bufAppend k bs, .tryExtract k] s = .next m ∧ m.cfg = s.cfg ∧
      m.responses = s.responses ++ [.ok .done, .ok (.extracted none)] ∧ m.bufOf k = s.bufOf k ++ bs := by
  refine ⟨_, execAll_pair_next.2 ⟨_, exec_bufAppend_of_room hroom, exec_tryExtract_of_incomplete (.inr ?_)⟩, ?_⟩
  · rwa [bufOf_respond, bufOf_setBuf_same]
  · simp

/-- The attempt after the piece that completes the packet gives the packet, and the bytes after it stay (R422). -/
theorem feed_complete (hroom : s.hasRoom k bs.length = true) (hp : PacketWellFormed p)
    (hbuf : s.bufOf k ++ bs = p ++ rest) :
    execAll [.bufAppend k bs, .tryExtract k] s =
      .next (((s.setBuf k rest).respond (.ok .done)).respond (.ok (.extracted (some p)))) := by
  refine execAll_pair_next.2 ⟨_, exec_bufAppend_of_room hroom, ?_⟩
  have hhead : ((s.setBuf k (s.bufOf k ++ bs)).respond (.ok .done)).bufOf k = p ++ rest := by
    rw [bufOf_respond, bufOf_setBuf_same, hbuf]
  rw [exec_tryExtract_of_packet hp hhead, setBuf_respond, setBuf_setBuf]

/-- Feeding the rest of a packet whose first bytes are in the buffer already (R422). -/
theorem feed_pieces (pieces : List Bytes) {last extra : Bytes} (hlast : last ≠ [])
    (hwf : PacketWellFormed (s.bufOf k ++ pieces.flatten ++ last))
    (hcap : ∀ c, s.cfg.bufCap = some c → (s.bufOf k ++ pieces.flatten ++ last ++ extra).length ≤ c) :
    ∃ t, execAll (pieces.flatMap (fun x => [.bufAppend k x, .tryExtract k]) ++
          [.bufAppend k (last ++ extra), .tryExtract k]) s = .next t ∧
      t.responses = s.responses ++ pieces.flatMap (fun _ => [.ok .done, .ok (.extracted none)]) ++
        [.ok .done, .ok (.extracted (some (s.bufOf k ++ pieces.flatten ++ last)))] ∧
      t.bufOf k = extra := by
  induction pieces generalizing s with
  | nil =>
    have hroom : s.hasRoom k (last ++ extra).length = true := by
      refine (hasRoom_iff s k _).2 fun c hc => ?_
      simpa [Nat.add_assoc] using hcap c hc
    have hbuf : s.bufOf k ++ (last ++ extra) = s.bufOf k ++ [].flatten ++ last ++ extra := by simp
    refine ⟨_, feed_complete hroom hwf hbuf, ?_, ?_⟩ <;> simp
  | cons x pieces ih =>
    have hroom : s.hasRoom k x.length = true := by
      refine (hasRoom_iff s k _).2 fun c hc => le_trans ?_ (hcap c hc)
      simp only [List.flatten_cons, List.length_append]
      omega
    have hsplit : s.bufOf k ++ (x :: pieces).flatten ++ last = s.bufOf k ++ x ++ pieces.flatten ++ last := by simp
    rw [hsplit] at hwf hcap ⊢
    have hinc : (s.bufOf k ++ x).length < 9 + ((s.bufOf k ++ x).headD 0).toNat := by
      refine incomplete_of_wellFormed_append (b := pieces.flatten ++ last) ?_ (List.append_ne_nil_of_right_ne_nil _ hlast)
      rwa [← List.append_assoc]
    obtain ⟨m, hfirst, hcfg, hresp, hbuf⟩ := feed_incomplete hroom hinc
    rw [← hbuf] at hwf hcap ⊢
    rw [← hcfg] at hcap
    obtain ⟨t, hrun, hresp', hextra⟩ := ih hwf hcap
    refine ⟨t, ?_, ?_, hextra⟩
    · rw [List.flatMap_cons, List.append_assoc, execAll_append_of_next hfirst, hrun]
    · simp [hresp', hresp]

/-- Settles O27, by feeding the pieces into an empty buffer; no other link is named. -/
theorem piecewiseFeeding : Obligations.PiecewiseFeeding := by
  intro s k pieces last extra hempty hlast hwf hcap
  have hstart : s.bufOf k ++ pieces.flatten ++ last = pieces.flatten ++ last := by rw [hempty, List.nil_append]
  rw [← hstart] at hwf hcap ⊢
  obtain ⟨t, hrun, hresp, hextra⟩ := feed_pieces pieces hlast hwf hcap
  refine ⟨t, hrun, hresp, hextra, fun j hj => (agreeOn_of_execAll hrun fun i hi => ?_).buf⟩
  have hlink : i.link? = some k := by
    simp only [List.mem_append, List.mem_flatMap, List.mem_cons, List.not_mem_nil, or_false] at hi
    rcases hi with ⟨_, _, rfl | rfl⟩ | rfl | rfl <;> rfl
  rw [hlink]
  exact fun h => hj (Option.some.inj h).symm

end Sys2Proof.Machine
end

section
/-! A framed packet read back (R302, R303, R410): under the `ADDR_ORDER` it was framed with, its header decodes to the
fields it was made of, and the destination is the one it was made for. -/

namespace Sys2Proof.Machine

variable (o : AddrOrder) (len : Byte) (src dst : Addr) (pl : Bytes)

/-- The source field stands in bytes 1 to 4 of a framed packet (R302). -/
@[simp] theorem slice_source : slice (encodeHeader o len src dst ++ pl) 1 5 = encodeAddress o src := by
  cases o <;> simp [encodeHeader, slice]

/-- The destination field stands in bytes 5 to 8 of a framed packet (R302). -/
@[simp] theorem slice_destination : slice (encodeHeader o len src dst ++ pl) 5 9 = encodeAddress o dst := by
  cases o <;> simp [encodeHeader, slice]

/-- Decoding the header of a framed packet inverts encoding it (R404). -/
theorem decodeHeader_encodeHeader_append :
    decodeHeader o (encodeHeader o len src dst ++ pl) = .ok ⟨len, src, dst⟩ := by
  have hlong : ¬ (encodeHeader o len src dst ++ pl).length < headerSize := by simp [headerSize]
  rw [decodeHeader, if_neg hlong, slice_source, slice_destination, decodeAddress_encodeAddress,
    decodeAddress_encodeAddress]
  rfl

/-- The destination that `PROCESS_PKT` reads in a framed packet is the one it was framed for (R410, R431). -/
theorem destinationOf_encodeHeader_append : destinationOf o (encodeHeader o len src dst ++ pl) = dst := by
  have hlong : 9 ≤ (encodeHeader o len src dst ++ pl).length := by simp
  have hfields := (decodeHeader_long o hlong).symm.trans (decodeHeader_encodeHeader_append o len src dst pl)
  exact congrArg Header.dst (Except.ok.inj hfields)

end Sys2Proof.Machine
end

section
/-! A whole packet at one node (R431, R450): delivered where its destination is the node's own address, handed to a link
where it is not, and the link-read event that brings it to an empty buffer. -/

namespace Sys2Proof.Machine

variable {s : State} {k : LinkId} {p : Bytes}

/-- A packet for the node itself is delivered without its header (R431). -/
theorem processPacket_of_own (hp : 9 ≤ p.length) (hdst : destinationOf s.cfg.addrOrder p = s.localAddr) :
    s.processPacket p = (.delivered, s.emit (.clientReceive (p.drop 9))) := by
  rcases processPacket_cases s p with ⟨hshort, _⟩ | ⟨_, _, heq⟩ | ⟨_, hother, _⟩ | ⟨_, hother, _⟩
  · omega
  · exact heq
  · exact absurd hdst hother
  · exact absurd hdst hother

/-- A packet for another node is handed unchanged to a member of a link set that is not empty (R431, R440, R442). -/
theorem processPacket_of_other (hp : 9 ≤ p.length) (hdst : destinationOf s.cfg.addrOrder p ≠ s.localAddr)
    (hlinks : s.linkSet ≠ []) :
    ∃ j ∈ s.linkSet, s.processPacket p = (.forwarded j, (drawn s).emit (.linkSend j p)) := by
  rcases processPacket_cases s p with ⟨hshort, _⟩ | ⟨_, hown, _⟩ | ⟨_, _, hempty, _⟩ | ⟨_, _, j, hj, heq⟩
  · omega
  · exact absurd hown hdst
  · exact absurd hempty hlinks
  · exact ⟨j, hj, draw_snd s _ ▸ heq⟩

/-- `PROCESS_PKT` ends with the outcome of `processPacket` (R431). -/
theorem exec_processPkt (s : State) (p : Bytes) : exec (.processPkt p) s =
    .next ((s.processPacket p).2.finish (processResult (s.processPacket p).1)) := rfl

theorem exec_processPkt_of_other (hp : 9 ≤ p.length) (hdst : destinationOf s.cfg.addrOrder p ≠ s.localAddr)
    (hlinks : s.linkSet ≠ []) :
    ∃ j ∈ s.linkSet, exec (.processPkt p) s =
      .next (((drawn s).emit (.linkSend j p)).respond (.ok (.forwarded j))) := by
  obtain ⟨j, hj, hforward⟩ := processPacket_of_other hp hdst hlinks
  exact ⟨j, hj, by rw [exec_processPkt, hforward, processResult, finish_ok]⟩

/-- On a buffer that holds one packet and nothing else, the loop of a link-read event processes that packet and ends: with
`RX_DRAIN` its second attempt finds the buffer empty (R450). -/
theorem rxLoop_of_packet (hp : PacketWellFormed p) (hbuf : s.bufOf k = p) (n : Nat) :
    s.rxLoop k (n + 1) = ([((s.setBuf k []).processPacket p).1], ((s.setBuf k []).processPacket p).2) := by
  have hlen : 9 + ((s.bufOf k).headD 0).toNat = p.length := by rw [hbuf, wellFormed_length hp]
  have hempty : ((s.setBuf k []).processPacket p).2.bufOf k = [] := by
    rw [State.bufOf, (processPacket_frame _ p).2]
    exact bufOf_setBuf_same s k []
  have hnext := rxLoop_none ((s.setBuf k []).processPacket p).2 n (.inl (by rw [hempty]; decide))
  rw [rxLoop_some s n (by rw [hlen, hbuf]), hlen, hbuf, List.take_length, List.drop_length]
  simp only [hnext, ite_self]

/-- One packet that arrives whole on an empty buffer is processed, and the buffer is empty again (R450). -/
theorem linkRead_of_packet (hp : PacketWellFormed p) (hempty : s.bufOf k = []) :
    s.linkRead k p = ([((s.setBuf k []).processPacket p).1], ((s.setBuf k []).processPacket p).2) := by
  have hbuf : (s.setBuf k p).bufOf k = p := bufOf_setBuf_same s k p
  rw [State.linkRead, bufAppend_eq, hempty, List.nil_append, rxLoop_of_packet hp hbuf, setBuf_setBuf]

/-- A link-read event that is enabled completes with its outcomes (R420, R450). -/
theorem exec_linkRx_of_room {bs : Bytes} (hroom : s.hasRoom k bs.length = true) : exec (.linkRx k bs) s =
    .next ((s.linkRead k bs).2.respond (.ok (.outcomes k (s.linkRead k bs).1))) := by
  change s.receive k bs = _
  rw [State.receive, if_pos hroom, complete_eq]

/-- A packet for the node itself that arrives whole on an empty buffer is delivered (R431, R450). -/
theorem exec_linkRx_of_own (hroom : s.hasRoom k p.length = true) (hempty : s.bufOf k = []) (hp : PacketWellFormed p)
    (hdst : destinationOf s.cfg.addrOrder p = s.localAddr) :
    exec (.linkRx k p) s = .next (((s.setBuf k []).emit (.clientReceive (p.drop 9))).respond
      (.ok (.outcomes k [.delivered]))) := by
  have hdeliver := processPacket_of_own (s := s.setBuf k []) (wellFormed_length_bounds hp).1 hdst
  rw [exec_linkRx_of_room hroom, linkRead_of_packet hp hempty, hdeliver]

/-- Settles O50: the three nodes read the destination that the first one framed, so the second forwards the packet and the
third, whose address it is, delivers what follows the nine bytes of the header. -/
theorem endToEndTransparency : Obligations.EndToEndTransparency := by
  intro a b d dst pl k hb hd hfits hother hlinks hown hempty hcap
  have hdst := destinationOf_encodeHeader_append a.cfg.addrOrder (BitVec.ofNat 8 pl.length) a.localAddr dst pl
  have hpayload : (encodeHeader a.cfg.addrOrder (BitVec.ofNat 8 pl.length) a.localAddr dst ++ pl).drop 9 = pl :=
    List.drop_left' (encodeHeader_length ..)
  have hheader := decodeHeader_encodeHeader_append a.cfg.addrOrder (BitVec.ofNat 8 pl.length) a.localAddr dst pl
  have hwf := wellFormed_encodeHeader_append a.cfg.addrOrder a.localAddr dst hfits
  have hcreate := exec_createPkt_of_le (s := a) (dst := dst) hfits
  generalize encodeHeader a.cfg.addrOrder (BitVec.ofNat 8 pl.length) a.localAddr dst ++ pl = p
    at hdst hpayload hheader hwf hcreate
  refine ⟨p, hcreate, ?_, ?_, _, hheader⟩
  · have hdiffers : destinationOf b.cfg.addrOrder p ≠ b.localAddr := by rw [hb, hdst]; exact hother.symm
    obtain ⟨j, hj, hforward⟩ := exec_processPkt_of_other (wellFormed_length_bounds hwf).1 hdiffers hlinks
    exact ⟨_, j, hj, hforward, rfl⟩
  · have hroom : d.hasRoom k p.length = true := by rw [State.hasRoom, hcap]
    have hagrees : destinationOf d.cfg.addrOrder p = d.localAddr := by rw [hd, hdst, hown]
    refine ⟨_, exec_linkRx_of_own hroom hempty hwf hagrees, ?_, ?_⟩
    · rw [respond_outputs, emit_outputs, setBuf_outputs, hpayload]
    · rw [bufOf_respond, bufOf_emit, bufOf_setBuf_same]

end Sys2Proof.Machine
end

section
/-! The status of an operation (R600, R606, R608): an operation that completes adds one response, which is a result
where the table of R608 says `OK`, and otherwise the error of the table on the state the operation found. -/

namespace Sys2Proof.Machine

variable {i : Instr} {s t : State}

/-- How an operation that completes ends: with a result and status `OK`, whatever it has done on the way, or with an
error as the only thing that is new. The status is that of the table of R608 in both. -/
inductive EndsWithStatus (i : Instr) (s : State) : State → Prop
  | ok {u : State} (hresp : u.responses = s.responses) (v : Result) (hcode : statusTable i s = 0) :
      EndsWithStatus i s (u.respond (.ok v))
  | error (e : CoreError) (hcode : statusTable i s = errorCode e) : EndsWithStatus i s (s.respond (.error e))

/-- `decodePacket` fails exactly below nine bytes (R411). -/
theorem decodePacket_short (o : AddrOrder) {p : Bytes} (h : p.length < 9) :
    decodePacket o p = .error (.malformedHeader 9 p.length) := by
  rw [decodePacket, decodeHeader_short o h]

theorem decodePacket_long (o : AddrOrder) {p : Bytes} (h : 9 ≤ p.length) : ∃ d, decodePacket o p = .ok d := by
  rw [decodePacket, decodeHeader_long o h]
  exact ⟨_, rfl⟩

/-! ### The codec and the framer: too few bytes, or too many (R602, R603) -/

theorem decAddr_endsWithStatus (bs : Bytes) (s : State) :
    EndsWithStatus (.decAddr bs) s (s.finish ((decodeAddress s.cfg.addrOrder bs).map .addr)) := by
  rcases lt_or_ge bs.length 4 with hshort | hlong
  · rw [decodeAddress_short _ hshort, Except.map, finish_error]
    exact .error _ (if_pos hshort)
  · rw [decodeAddress_long _ hlong, Except.map, finish_ok]
    exact .ok rfl _ (if_neg hlong.not_gt)

theorem decHdr_endsWithStatus (bs : Bytes) (s : State) :
    EndsWithStatus (.decHdr bs) s (s.finish ((decodeHeader s.cfg.addrOrder bs).map .header)) := by
  rcases lt_or_ge bs.length 9 with hshort | hlong
  · rw [decodeHeader_short _ hshort]
    exact .error _ (if_pos hshort)
  · rw [decodeHeader_long _ hlong]
    exact .ok rfl _ (if_neg hlong.not_gt)

theorem decPkt_endsWithStatus (p : Bytes) (s : State) : EndsWithStatus (.decPkt p) s
    (s.finish ((decodePacket s.cfg.addrOrder p).map fun d => .packet d.1 d.2)) := by
  rcases lt_or_ge p.length 9 with hshort | hlong
  · rw [decodePacket_short _ hshort]
    exact .error _ (if_pos hshort)
  · obtain ⟨d, hdecode⟩ := decodePacket_long s.cfg.addrOrder hlong
    rw [hdecode, Except.map, finish_ok]
    exact .ok rfl _ (if_neg hlong.not_gt)

theorem createPkt_endsWithStatus (dst : Addr) (pl : Bytes) (s : State) : EndsWithStatus (.createPkt dst pl) s
    (s.finish ((createPacket s.cfg.addrOrder s.localAddr dst pl).map .bytes)) := by
  rcases createPacket_cases s.cfg.addrOrder s.localAddr dst pl with ⟨hlarge, heq⟩ | ⟨hfits, heq⟩ <;> rw [heq]
  · exact .error _ (if_neg hlarge.not_ge)
  · exact .ok rfl _ (if_pos hfits)

/-! ### The operations that route: no link to choose (R604) -/

theorem route_endsWithStatus (dst : Addr) (s : State) :
    EndsWithStatus (.route dst) s (s.route.2.finish (s.route.1.map .link)) := by
  rcases route_cases s with ⟨hempty, heq⟩ | ⟨k, hk, heq⟩ <;> rw [heq]
  · exact .error _ (if_pos hempty)
  · exact .ok (draw_responses s _) _ (if_neg (List.ne_nil_of_mem hk))

theorem clientSend_endsWithStatus (dst : Addr) (pl : Bytes) (s : State) : EndsWithStatus (.clientSend dst pl) s
    ((s.sendData dst pl).2.finish ((s.sendData dst pl).1.map .sent)) := by
  rcases sendData_cases s dst pl with ⟨hlarge, heq⟩ | ⟨hfits, hempty, heq⟩ | ⟨hfits, k, hk, heq⟩ <;>
    rw [heq]
  · exact .error _ (if_pos hlarge)
  · exact .error _ ((if_neg hfits.not_gt).trans (if_pos hempty))
  · exact .ok (draw_emit_frame s _ _).responses _ ((if_neg hfits.not_gt).trans (if_neg (List.ne_nil_of_mem hk)))

/-- With a whole header the table asks for an outcome: delivery here, or a link to choose (R608). -/
theorem statusTable_processPkt_of_long {p : Bytes} (h : 9 ≤ p.length) : statusTable (.processPkt p) s =
    if destinationOf s.cfg.addrOrder p = s.localAddr ∨ s.linkSet ≠ [] then 0 else 3 := if_neg h.not_gt

theorem processPkt_endsWithStatus (p : Bytes) (s : State) : EndsWithStatus (.processPkt p) s
    ((s.processPacket p).2.finish (processResult (s.processPacket p).1)) := by
  rcases processPacket_cases s p with ⟨hshort, heq⟩ | ⟨hlong, hown, heq⟩ | ⟨hlong, hother, hempty, heq⟩ |
    ⟨hlong, _, k, hk, heq⟩ <;> rw [heq, processResult]
  · exact .error _ (if_pos hshort)
  · exact .ok (emit_responses s _) _ (by rw [statusTable_processPkt_of_long hlong, if_pos (.inl hown)])
  · exact .error _ (by rw [statusTable_processPkt_of_long hlong, if_neg (by simp [hother, hempty])]; rfl)
  · exact .ok (draw_emit_frame s _ _).responses _
      (by rw [statusTable_processPkt_of_long hlong, if_pos (.inr (List.ne_nil_of_mem hk))])

/-! ### All operations -/

/-- A link-read event that completes has status `OK`: the errors of its packets stand in its outcomes (R450, R608). -/
theorem receive_endsWithStatus {k : LinkId} {bs : Bytes} (htable : statusTable i s = 0) (h : s.receive k bs = .next t) :
    EndsWithStatus i s t := by
  obtain ⟨_, rfl⟩ := receive_next h
  exact .ok (linkRead_frame s k bs).1.responses _ htable

/-- Every operation that completes ends with the status of the table (R600, R606, R608). -/
theorem exec_endsWithStatus (h : exec i s = .next t) : EndsWithStatus i s t := by
  cases i with
  | encAddr | encHdr => cases h; exact .ok (u := s) rfl _ rfl
  | decAddr bs => cases h; exact decAddr_endsWithStatus bs s
  | decHdr bs => cases h; exact decHdr_endsWithStatus bs s
  | createPkt dst pl => cases h; exact createPkt_endsWithStatus dst pl s
  | decPkt p => cases h; exact decPkt_endsWithStatus p s
  | bufAppend k bs => obtain ⟨_, rfl⟩ := execBufAppend_next h; exact .ok (setBuf_frame s k _).responses _ rfl
  | tryExtract k => cases h; exact .ok (tryExtract_frame s k).responses _ rfl
  | route dst => cases h; exact route_endsWithStatus dst s
  | processPkt p => cases h; exact processPkt_endsWithStatus p s
  | linkRx k bs => exact receive_endsWithStatus rfl h
  | clientSend dst pl => cases h; exact clientSend_endsWithStatus dst pl s
  | linkReset k => cases h; exact .ok (setBuf_frame s k []).responses _ rfl
  | pktHeader k len src dst => exact receive_endsWithStatus rfl h

/-- Settles O43: an operation ends with one response more, a result or an error, and its code is the table's either way.
The wire row `PKT_HEADER` has the row of `LINK_RX` (log entry 13). -/
theorem everyOperationReturnsItsStatus : Obligations.EveryOperationReturnsItsStatus := by
  intro i s t h
  cases exec_endsWithStatus h with
  | ok hresp v hcode => exact ⟨.ok v, by rw [respond_responses, hresp], hcode.symm⟩
  | error e hcode => exact ⟨.error e, rfl, hcode.symm⟩

/-- Settles O44: an operation that ends with a result has added no error, and one that ends with an error has added only
that. -/
theorem errorsArePrecise : Obligations.ErrorsArePrecise := by
  intro i s t e h hresp
  cases exec_endsWithStatus h with
  | ok hsame v _ => rw [respond_responses, hsame] at hresp; simp at hresp
  | error e' _ =>
    obtain rfl : e' = e := by simpa using hresp
    rfl

end Sys2Proof.Machine
end

section
/-! The minimum-header boundary (R710): the length of a buffer whose length byte is 0 decides an attempt at nine
bytes. -/

namespace Sys2Proof.Machine

/-- Nine bytes whose length byte is 0 are a packet with no payload (R303). -/
theorem wellFormed_of_bare_header {p : Bytes} (hlen : p.length = 9) (hhead : p.headD 0 = 0) : PacketWellFormed p :=
  ⟨hlen.ge, by rw [hhead, hlen]; rfl⟩

/-- Settles O25: eight bytes are less than a header, whatever they are, and nine with length byte 0 are one packet with
nothing after it. -/
theorem minimumHeaderBoundary : Obligations.MinimumHeaderBoundary := by
  intro s k
  refine ⟨fun hlen => exec_tryExtract_of_incomplete (.inl (by omega)), fun hlen hhead => ?_⟩
  have hpacket : PacketWellFormed (s.bufOf k) := wellFormed_of_bare_header hlen hhead
  have hwhole : s.bufOf k = s.bufOf k ++ [] := (List.append_nil _).symm
  exact ⟨_, exec_tryExtract_of_packet hpacket hwhole, bufOf_setBuf_same s k [], List.drop_eq_nil_of_le hlen.le,
    fun j hj => bufOf_setBuf_ne s [] hj⟩

end Sys2Proof.Machine
end

section
/-! A packet between nodes of different `ADDR_ORDER` (R404, R716): its bytes are those that the other order frames for the
byte-reversed addresses, so the second node does with it what it does with a packet of its own order for those. -/

namespace Sys2Proof.Machine

variable {o o' : AddrOrder} {s : State} {k : LinkId} {p : Bytes}

/-- The address with the four bytes of `a` in reverse order. -/
def byteReversed (a : Addr) : Addr :=
  a.extractLsb' 0 8 ++ a.extractLsb' 8 8 ++ a.extractLsb' 16 8 ++ a.extractLsb' 24 8

/-- Under either order the field of the reversed address is the reversed field (R203). -/
theorem encodeAddress_byteReversed (o : AddrOrder) (a : Addr) :
    encodeAddress o (byteReversed a) = (encodeAddress o a).reverse := by
  obtain ⟨h24, h16, h8, h0⟩ := bytes_of_append4 _ _ _ _ (byteReversed a) rfl
  cases o with
  | be => rw [encodeAddress_be, h24, h16, h8, h0]; rfl
  | le => rw [encodeAddress_le, h24, h16, h8, h0]; rfl

/-- The two orders lay out the same four bytes in opposite directions (R203). -/
theorem encodeAddress_of_ne (h : o ≠ o') (a : Addr) : encodeAddress o a = (encodeAddress o' a).reverse := by
  match o, o', h with
  | .be, .le, _ => rfl
  | .le, .be, _ => rfl

/-- What one order frames, the other one frames for the reversed addresses (R716). -/
theorem encodeHeader_of_ne (h : o ≠ o') (len : Byte) (src dst : Addr) :
    encodeHeader o len src dst = encodeHeader o' len (byteReversed src) (byteReversed dst) := by
  rw [encodeHeader, encodeHeader, encodeAddress_byteReversed, encodeAddress_byteReversed, ← encodeAddress_of_ne h,
    ← encodeAddress_of_ne h]

/-- Decoding a framed packet gives back its fields and its payload (R411, R412). -/
theorem decodePacket_encodeHeader_append (o : AddrOrder) (len : Byte) (src dst : Addr) (pl : Bytes) :
    decodePacket o (encodeHeader o len src dst ++ pl) = .ok (⟨len, src, dst⟩, pl) := by
  rw [decodePacket, decodeHeader_encodeHeader_append, slice_to_end, List.drop_left' (encodeHeader_length ..)]

/-- `DEC_PKT` ends with the framer's answer and changes nothing else (R411). -/
theorem exec_decPkt_of_decoded {h : Header} {pl : Bytes} (hdecode : decodePacket s.cfg.addrOrder p = .ok (h, pl)) :
    exec (.decPkt p) s = .next (s.respond (.ok (.packet h pl))) := by
  change Host.Outcome.next (s.finish ((decodePacket s.cfg.addrOrder p).map fun d => .packet d.1 d.2)) = _
  rw [hdecode, Except.map, finish_ok]

/-- A packet for the node itself is delivered, and nothing else changes (R431). -/
theorem exec_processPkt_of_own (hp : 9 ≤ p.length) (hdst : destinationOf s.cfg.addrOrder p = s.localAddr) :
    exec (.processPkt p) s = .next ((s.emit (.clientReceive (p.drop 9))).respond (.ok .delivered)) := by
  rw [exec_processPkt, processPacket_of_own hp hdst, processResult, finish_ok]

/-- A packet for another node is dropped where there is no link to hand it to (R431, R604). -/
theorem exec_processPkt_of_no_link (hp : 9 ≤ p.length) (hdst : destinationOf s.cfg.addrOrder p ≠ s.localAddr)
    (hlinks : s.linkSet = []) : exec (.processPkt p) s = .next (s.respond (.error .noLinksAvailable)) := by
  rcases processPacket_cases s p with ⟨hshort, _⟩ | ⟨_, hown, _⟩ | ⟨_, _, _, heq⟩ | ⟨_, _, j, hj, _⟩
  · omega
  · exact absurd hown hdst
  · rw [exec_processPkt, heq, processResult, finish_error]
  · exact absurd hlinks (List.ne_nil_of_mem hj)

/-- A packet that comes whole to an empty buffer with room for it is extracted whole, and the buffer is empty again
(R421, R422). -/
theorem feed_packet (hp : PacketWellFormed p) (hempty : s.bufOf k = [])
    (hcap : ∀ c, s.cfg.bufCap = some c → p.length ≤ c) :
    ∃ t, execAll [.bufAppend k p, .tryExtract k] s = .next t ∧
      t.responses = s.responses ++ [.ok .done, .ok (.extracted (some p))] ∧ t.bufOf k = [] := by
  have hroom : s.hasRoom k p.length = true := (hasRoom_iff s k _).2 (by simpa [hempty] using hcap)
  have hbuf : s.bufOf k ++ p = p ++ [] := by rw [hempty, List.nil_append, List.append_nil]
  exact ⟨_, feed_complete hroom hp hbuf, by simp, by simp⟩

/-- Settles O51: the packet is one of the second node's own order for the reversed addresses, so that node reads those;
the length byte and the payload are the same under both orders. A forwarded packet uses one draw (log
entry 4). -/
theorem mixedByteOrdersMisread : Obligations.MixedByteOrdersMisread := by
  intro a d dst pl hne hfits
  have hcreate := exec_createPkt_of_le (s := a) (dst := dst) hfits
  have hwf := wellFormed_encodeHeader_append a.cfg.addrOrder a.localAddr dst hfits
  rw [encodeHeader_of_ne hne] at hcreate hwf
  generalize hp : encodeHeader d.cfg.addrOrder _ (byteReversed a.localAddr) (byteReversed dst) ++ pl = p
    at hcreate hwf
  have hdecode : decodePacket d.cfg.addrOrder p = .ok (⟨_, byteReversed a.localAddr, byteReversed dst⟩, pl) :=
    hp ▸ decodePacket_encodeHeader_append ..
  have hdst : destinationOf d.cfg.addrOrder p = byteReversed dst := hp ▸ destinationOf_encodeHeader_append ..
  have hpayload : p.drop 9 = pl := hp ▸ List.drop_left' (encodeHeader_length ..)
  have hlong : 9 ≤ p.length := (wellFormed_length_bounds hwf).1
  refine ⟨p, byteReversed a.localAddr, byteReversed dst, hcreate, hwf, encodeAddress_byteReversed ..,
    encodeAddress_byteReversed .., exec_decPkt_of_decoded hdecode, fun k => feed_packet hwf, ?_, ?_, ?_⟩
  · intro hown
    rw [exec_processPkt_of_own hlong (hdst.trans hown), hpayload]
    rfl
  · intro hother hlinks
    exact exec_processPkt_of_no_link hlong (hdst.trans_ne hother) hlinks
  · intro hother hlinks
    exact exec_processPkt_of_other hlong (hdst.trans_ne hother) hlinks

end Sys2Proof.Machine
end

section
/-! Decoder and encoder (R301, R311): the operation codes and their operands, the two address fields of the wire header,
and what each of the two gives back of the other. -/

namespace Sys2Proof.Machine

variable {o : AddrOrder} {c : Opcode} {i j : Instr} {n : Nat} {bs : Bytes} {args : List Operand}

/-! ### Operation codes and operands -/

@[simp] theorem ofBits_bits (c : Opcode) : Opcode.ofBits c.bits = some c := by
  cases c <;> rfl

/-- A code that selects an operation is that operation's code (R311). -/
theorem bits_of_ofBits {op : BitVec 4} (h : Opcode.ofBits op = some c) : c.bits = op := by
  unfold Opcode.ofBits at h
  split at h
  case h_14 => nomatch h
  all_goals
    next hop =>
    cases h
    exact BitVec.eq_of_toNat_eq hop.symm

theorem ofBits_eq_none {op : BitVec 4} (h : op = 0x0#4 ∨ op = 0xE#4 ∨ op = 0xF#4) :
    Opcode.ofBits op = none := by
  rcases h with rfl | rfl | rfl <;> rfl

/-- A `Bytes` operand is accepted exactly with its own length (R311). -/
theorem withBytes_eq_ok : withBytes n bs i = .ok j ↔ n = bs.length ∧ i = j := by
  unfold withBytes
  split <;> simp [*]

theorem decode_cmd (o : AddrOrder) (c : Opcode) (args : List Operand) :
    decode o (.cmd c.bits args) = decodeArgs c args := by
  simp only [decode, ofBits_bits]

/-- Operands that the decoder accepts are those the encoder writes beside the same code (R311). -/
theorem encode_of_decodeArgs (h : decodeArgs c args = .ok i) : encode o i = .cmd c.bits args := by
  cases c with
  | encAddr | encHdr | tryExtract | route | linkReset =>
    simp only [decodeArgs] at h
    split at h
    · cases h; rfl
    · nomatch h
  | decAddr | decHdr | createPkt | decPkt | bufAppend | processPkt | linkRx | clientSend =>
    simp only [decodeArgs] at h
    split at h
    · obtain ⟨rfl, rfl⟩ := withBytes_eq_ok.1 h; rfl
    · nomatch h

/-! ### The address fields of the wire header -/

/-- An address laid out in four bytes gives back those it was assembled from (R203, R400). -/
@[simp] theorem addrToBytes_addrOfBytes (o : AddrOrder) (b0 b1 b2 b3 : Byte) :
    addrToBytes o (addrOfBytes o b0 b1 b2 b3) = [b0, b1, b2, b3] := by
  cases o with
  | be =>
    obtain ⟨h24, h16, h8, h0⟩ := bytes_of_append4 b0 b1 b2 b3 _ rfl
    simp only [addrToBytes, addrOfBytes, h24, h16, h8, h0]
  | le =>
    obtain ⟨h24, h16, h8, h0⟩ := bytes_of_append4 b3 b2 b1 b0 _ rfl
    simp only [addrToBytes, addrOfBytes, h24, h16, h8, h0]

theorem addrToBytes_addrOfField (o : AddrOrder) (f : BitVec 32) :
    addrToBytes o (addrOfField o f) = [f.extractLsb' 24 8, f.extractLsb' 16 8, f.extractLsb' 8 8, f.extractLsb' 0 8] :=
  addrToBytes_addrOfBytes ..

/-- The field of an address and the address in a field are inverse under either order (R203, R301). -/
@[simp] theorem addrOfField_fieldOfAddr (o : AddrOrder) (a : Addr) : addrOfField o (fieldOfAddr o a) = a := by
  cases o with
  | be => exact append4_of_bytes a
  | le =>
    obtain ⟨h24, h16, h8, h0⟩ := bytes_of_append4 _ _ _ _ (fieldOfAddr .le a) rfl
    rw [addrOfField, h24, h16, h8, h0]
    exact append4_of_bytes a

@[simp] theorem fieldOfAddr_addrOfField (o : AddrOrder) (f : BitVec 32) : fieldOfAddr o (addrOfField o f) = f := by
  cases o with
  | be => exact append4_of_bytes f
  | le =>
    obtain ⟨h24, h16, h8, h0⟩ := bytes_of_append4 _ _ _ _ (addrOfField .le f) rfl
    rw [fieldOfAddr, h24, h16, h8, h0]
    exact append4_of_bytes f

@[simp] theorem decodeHeaderWord_headerWord (o : AddrOrder) (k : LinkId) (len : Byte) (src dst : Addr) :
    decodeHeaderWord o k (headerWord o len src dst) = .pktHeader k len src dst := by
  obtain ⟨hlen, hsrc, hdst⟩ := fields_of_append len (fieldOfAddr o src) (fieldOfAddr o dst) _ rfl
  rw [decodeHeaderWord, headerWord, hlen, hsrc, hdst, addrOfField_fieldOfAddr, addrOfField_fieldOfAddr]

theorem encode_decodeHeaderWord (o : AddrOrder) (k : LinkId) (w : BitVec 72) :
    encode o (decodeHeaderWord o k w) = .header k w := by
  rw [decodeHeaderWord, encode, headerWord, fieldOfAddr_addrOfField, fieldOfAddr_addrOfField, append_fields_of_word]

/-! ### The round trips -/

/-- Every operation is presented as `Laws.EncodePort.Statement` says (R301, R311). -/
theorem encode_port (i : Instr) : Laws.EncodePort.Statement i := by
  cases i with
  | encAddr a => exact Laws.EncodePort.encAddr a
  | decAddr bs => exact Laws.EncodePort.decAddr bs
  | encHdr l s d => exact Laws.EncodePort.encHdr l s d
  | decHdr bs => exact Laws.EncodePort.decHdr bs
  | createPkt d pl => exact Laws.EncodePort.createPkt d pl
  | decPkt p => exact Laws.EncodePort.decPkt p
  | bufAppend k bs => exact Laws.EncodePort.bufAppend k bs
  | tryExtract k => exact Laws.EncodePort.tryExtract k
  | route d => exact Laws.EncodePort.route d
  | processPkt p => exact Laws.EncodePort.processPkt p
  | linkRx k bs => exact Laws.EncodePort.linkRx k bs
  | clientSend d pl => exact Laws.EncodePort.clientSend d pl
  | linkReset k => exact Laws.EncodePort.linkReset k
  | pktHeader k l s d => exact Laws.EncodePort.pktHeader k l s d

/-- Settles O1: the encoder writes a code that selects the operation with operands the decoder accepts for it, or the
wire header, whose fields are read back one by one. -/
theorem decodeOfEncode : Obligations.DecodeOfEncode := by
  intro o i
  rcases encode_port i o with ⟨c, args, henc, hargs⟩ | ⟨k, len, src, dst, rfl, henc⟩
  · rw [henc, decode_cmd, hargs]
  · rw [henc, decode, decodeHeaderWord_headerWord]

/-- Settles O2: a code fixes its operation and an operation its operands; the wire header is its three fields. -/
theorem encodeOfDecode : Obligations.EncodeOfDecode := by
  intro o x i hdec hport
  cases x with
  | cmd op args =>
    rw [decode] at hdec
    cases hop : Opcode.ofBits op with
    | none => simp [hop] at hdec
    | some c =>
      simp only [hop] at hdec
      rw [← bits_of_ofBits hop]
      exact encode_of_decodeArgs hdec
  | linkRx k bs => exact absurd rfl (hport k bs)
  | header k w =>
    cases hdec
    exact encode_decodeHeaderWord o k w

/-- Settles O3: each code is that of its operation, whose operands the decoder accepts. -/
theorem commandWordsDecode : Obligations.CommandWordsDecode := by
  intro o a b l k bs
  refine ⟨decodeOfEncode o (.encAddr a), decodeOfEncode o (.decAddr bs), decodeOfEncode o (.encHdr l a b),
    decodeOfEncode o (.decHdr bs), decodeOfEncode o (.createPkt a bs), decodeOfEncode o (.decPkt bs),
    decodeOfEncode o (.bufAppend k bs), decodeOfEncode o (.tryExtract k), decodeOfEncode o (.route a),
    decodeOfEncode o (.processPkt bs), decodeOfEncode o (.linkRx k bs), decodeOfEncode o (.clientSend a bs),
    decodeOfEncode o (.linkReset k), (decodeOfEncode o (.linkRx k bs)).symm, fun op args hop => ?_⟩
  simp only [decode, ofBits_eq_none hop]

/-- Settles O4: a row of operands of zeros is what the encoder writes for its operation, and the header of V40.21 has
its length in bits 71:64, its source in 63:32 and its destination in 31:0. -/
theorem tableWordsDecode : Obligations.TableWordsDecode :=
  ⟨rfl, rfl, rfl, rfl, rfl, rfl, rfl⟩

/-! ### The header bit by bit -/

/-- A byte of a field of a word is a byte of the word. -/
theorem byte_of_field (w : BitVec 72) {start i : Nat} (h : i + 8 ≤ 32) :
    (w.extractLsb' start 32).extractLsb' i 8 = w.extractLsb' (start + i) 8 := by
  apply BitVec.eq_of_getLsbD_eq
  intro n hn
  simp only [BitVec.getLsbD_extractLsb', hn, show i + n < 32 by omega, decide_true, Bool.true_and, Nat.add_assoc]

/-- The bytes of an address by their place in the field it was read from, under the order LE (R203). -/
theorem bytes_of_addrOfField_le (f : BitVec 32) :
    (addrOfField .le f).extractLsb' 0 8 = f.extractLsb' 24 8 ∧
    (addrOfField .le f).extractLsb' 8 8 = f.extractLsb' 16 8 ∧
    (addrOfField .le f).extractLsb' 16 8 = f.extractLsb' 8 8 ∧
    (addrOfField .le f).extractLsb' 24 8 = f.extractLsb' 0 8 := by
  obtain ⟨h24, h16, h8, h0⟩ := bytes_of_append4 _ _ _ _ (addrOfField .le f) rfl
  exact ⟨h0, h8, h16, h24⟩

/-- Settles O5: the two address fields are laid out as the bytes they were read from, under either order; the columns
for BE and LE are the field read as one number and byte by byte. -/
theorem headerBitLayout : Obligations.HeaderBitLayout := by
  intro o k w
  refine ⟨_, _, _, rfl, ?_, rfl, ?_, ?_⟩
  · rw [encodeHeader, encodeAddress, encodeAddress, addrToBytes_addrOfField, addrToBytes_addrOfField]
    simp [byte_of_field]
  · rintro rfl
    exact ⟨append4_of_bytes _, append4_of_bytes _⟩
  · rintro rfl
    obtain ⟨hs0, hs8, hs16, hs24⟩ := bytes_of_addrOfField_le (w.extractLsb' 32 32)
    obtain ⟨hd0, hd8, hd16, hd24⟩ := bytes_of_addrOfField_le (w.extractLsb' 0 32)
    rw [hs0, hs8, hs16, hs24, hd0, hd8, hd16, hd24]
    simp [byte_of_field]

/-! ### The inverse laws of the codec (R404) -/

/-- Four bytes are the encoding of the address they decode to (R404). -/
theorem encodeAddress_of_decoded (o : AddrOrder) {bs : Bytes} (h : bs.length = 4) :
    ∃ a, decodeAddress o bs = .ok a ∧ encodeAddress o a = bs := by
  match bs, h with
  | [b0, b1, b2, b3], _ => exact ⟨_, rfl, addrToBytes_addrOfBytes o b0 b1 b2 b3⟩

theorem decodeHeader_encodeHeader (o : AddrOrder) (len : Byte) (src dst : Addr) :
    decodeHeader o (encodeHeader o len src dst) = .ok ⟨len, src, dst⟩ := by
  simpa using decodeHeader_encodeHeader_append o len src dst []

/-- Nine bytes are the encoding of the header they decode to (R404). -/
theorem encodeHeader_of_decoded (o : AddrOrder) {bs : Bytes} (h : bs.length = 9) :
    ∃ len src dst, decodeHeader o bs = .ok ⟨len, src, dst⟩ ∧ encodeHeader o len src dst = bs := by
  match bs, h with
  | [b0, b1, b2, b3, b4, b5, b6, b7, b8], _ =>
    refine ⟨_, _, _, decodeHeader_long o (Nat.le_refl 9), ?_⟩
    rw [encodeHeader, encodeAddress, encodeAddress, addrToBytes_addrOfBytes, addrToBytes_addrOfBytes]
    rfl

theorem encodeAddress_injective (o : AddrOrder) : Function.Injective (encodeAddress o) := fun a b h => by
  have hdec := congrArg (decodeAddress o) h
  rw [decodeAddress_encodeAddress, decodeAddress_encodeAddress] at hdec
  exact Except.ok.inj hdec

/-- A node of the other order reads the byte-reversed address (R716). -/
theorem decodeAddress_encodeAddress_of_ne {o' : AddrOrder} (h : o' ≠ o) (a : Addr) :
    decodeAddress o' (encodeAddress o a) = .ok (byteReversed a) := by
  rw [encodeAddress_of_ne h.symm, ← encodeAddress_byteReversed, decodeAddress_encodeAddress]

/-- Settles O18: the other order reads the reversed address, which is the address itself exactly where its bytes are a
palindrome. -/
theorem codecInverseLaws : Obligations.CodecInverseLaws := by
  intro o
  refine ⟨decodeAddress_encodeAddress o, fun bs => encodeAddress_of_decoded o, decodeHeader_encodeHeader o,
    fun bs => encodeHeader_of_decoded o, fun o' a hne => ?_⟩
  calc decodeAddress o' (encodeAddress o a) = .ok a
      _ ↔ byteReversed a = a := by rw [decodeAddress_encodeAddress_of_ne hne, Except.ok.injEq]
      _ ↔ encodeAddress o (byteReversed a) = encodeAddress o a := (encodeAddress_injective o).eq_iff.symm
      _ ↔ encodeAddress o a = (encodeAddress o a).reverse := by rw [encodeAddress_byteReversed, eq_comm]

end Sys2Proof.Machine
end

section
/-! The operations that answer from their operands alone (R401 to R403, R411, R412): what the Header Codec and the
Packet Framer return on each side of the length they need. -/

namespace Sys2Proof.Machine

variable {s : State} {o : AddrOrder} {bs p pl : Bytes} {dst : Addr}

/-! ### Addresses (R401) -/

/-- Four bytes side by side as a number. -/
theorem toNat_append4 (b0 b1 b2 b3 : Byte) : (b0 ++ b1 ++ b2 ++ b3 : BitVec 32).toNat =
    b0.toNat * 2 ^ 24 + b1.toNat * 2 ^ 16 + b2.toNat * 2 ^ 8 + b3.toNat := by
  have hpair : ∀ {w : Nat} (x : BitVec w) (y : Byte), (x ++ y).toNat = x.toNat * 2 ^ 8 + y.toNat := fun x y => by
    rw [BitVec.toNat_append, ← Nat.shiftLeft_add_eq_or_of_lt y.isLt, Nat.shiftLeft_eq]
  rw [hpair, hpair, hpair]
  ring

/-- The number an address field holds, its first byte the highest under BE and the lowest under LE (R203, R401). -/
theorem toNat_addrOfBytes (o : AddrOrder) (b0 b1 b2 b3 : Byte) : (addrOfBytes o b0 b1 b2 b3).toNat =
    if o = .be then b0.toNat * 2 ^ 24 + b1.toNat * 2 ^ 16 + b2.toNat * 2 ^ 8 + b3.toNat
    else b3.toNat * 2 ^ 24 + b2.toNat * 2 ^ 16 + b1.toNat * 2 ^ 8 + b0.toNat := by
  cases o with
  | be => exact toNat_append4 b0 b1 b2 b3
  | le => exact toNat_append4 b3 b2 b1 b0

/-- `DEC_ADDR` ends with the codec's answer and changes nothing else (R401). -/
theorem exec_decAddr (s : State) (bs : Bytes) : exec (.decAddr bs) s =
    .next (s.finish ((decodeAddress s.cfg.addrOrder bs).map .addr)) := rfl

/-- Settles O15: four bytes decode whatever follows them, and fewer are the error. -/
theorem decodeAddressResult : Obligations.DecodeAddressResult := by
  intro s
  refine ⟨fun b0 b1 b2 b3 rest => ⟨_, toNat_addrOfBytes _ b0 b1 b2 b3, rfl⟩, fun bs hshort => ?_⟩
  rw [exec_decAddr, decodeAddress_short _ hshort, Except.map, finish_error, State.respond]

/-! ### Headers (R402, R403) -/

/-- Settles O16: the response is the length byte and the two address fields. -/
theorem encodeHeaderResult : Obligations.EncodeHeaderResult := by
  intro s l src dst
  refine ⟨rfl, ?_⟩
  rw [List.length_append, List.length_append, encodeAddress_length, encodeAddress_length]
  rfl

/-- `DEC_HDR` ends with the codec's answer and changes nothing else (R403). -/
theorem exec_decHdr (s : State) (bs : Bytes) : exec (.decHdr bs) s =
    .next (s.finish ((decodeHeader s.cfg.addrOrder bs).map .header)) := rfl

/-- The fields of a header are the length byte and the two addresses at offsets 1 and 5 (R302, R403). -/
theorem decodeHeader_fields (o : AddrOrder) (h : 9 ≤ bs.length) : ∃ src dst,
    decodeAddress o (slice bs 1 5) = .ok src ∧ decodeAddress o (slice bs 5 9) = .ok dst ∧
    decodeHeader o bs = .ok ⟨bs.headD 0, src, dst⟩ :=
  ⟨_, _, decodeAddress_slice o (i := 1) (by omega), decodeAddress_slice o (i := 5) h, decodeHeader_long o h⟩

/-- Settles O17: nine bytes decode field by field, and fewer are the error. -/
theorem decodeHeaderResult : Obligations.DecodeHeaderResult := by
  intro s bs
  refine ⟨fun hlong => ?_, fun hshort => ?_⟩
  · obtain ⟨src, dst, hsrc, hdst, hdecode⟩ := decodeHeader_fields s.cfg.addrOrder hlong
    refine ⟨src, dst, hsrc, hdst, ?_⟩
    rw [exec_decHdr, hdecode, Except.map, finish_ok, State.respond]
  · rw [exec_decHdr, decodeHeader_short _ hshort, Except.map, finish_error, State.respond]

/-! ### Packets (R411, R412) -/

/-- `DEC_PKT` ends with the framer's answer and changes nothing else (R411). -/
theorem exec_decPkt (s : State) (p : Bytes) : exec (.decPkt p) s =
    .next (s.finish ((decodePacket s.cfg.addrOrder p).map fun d => .packet d.1 d.2)) := rfl

theorem decodePacket_of_header {h : Header} (hdecode : decodeHeader o p = .ok h) :
    decodePacket o p = .ok (h, p.drop 9) := by
  rw [decodePacket, hdecode, slice_to_end]

/-- Settles O20: with a whole header everything after it is the payload, and without one there is only the error. -/
theorem decodePacketResult : Obligations.DecodePacketResult := by
  intro s p
  refine ⟨fun hlong => ?_, fun hshort => ?_⟩
  · obtain ⟨src, dst, hsrc, hdst, hdecode⟩ := decodeHeader_fields s.cfg.addrOrder hlong
    exact ⟨src, dst, hsrc, hdst, exec_decPkt_of_decoded (decodePacket_of_header hdecode)⟩
  · rw [exec_decPkt, decodePacket_short _ hshort, Except.map, finish_error, State.respond]

/-- A payload that `CREATE_PKT` does not refuse, and its destination, are those that `DEC_PKT` of the packet gives back
(R412). -/
theorem decodePacket_of_createPacket {src : Addr} (h : createPacket o src dst pl = .ok p) :
    decodePacket o p = .ok (⟨BitVec.ofNat 8 pl.length, src, dst⟩, pl) := by
  rcases createPacket_cases o src dst pl with ⟨_, heq⟩ | ⟨_, heq⟩ <;> rw [heq] at h
  · nomatch h
  · cases h
    exact decodePacket_encodeHeader_append ..

/-- Settles O21: what was framed is read back, so two operations that return one packet had the same operands. -/
theorem framerRoundTrip : Obligations.FramerRoundTrip := by
  intro s d pl hfits
  have hdecode := decodePacket_encodeHeader_append s.cfg.addrOrder (BitVec.ofNat 8 pl.length) s.localAddr d pl
  refine ⟨_, exec_createPkt_of_le hfits, exec_decPkt_of_decoded hdecode, ?_, fun d' pl' hcreate => ?_⟩
  · rw [List.length_append, encodeHeader_length]
  · have hdecode' := decodePacket_of_createPacket (createPacket_of_response hcreate rfl)
    simp only [hdecode, Except.ok.injEq, Prod.mk.injEq, Header.mk.injEq] at hdecode'
    obtain ⟨⟨_, _, rfl⟩, rfl⟩ := hdecode'
    exact ⟨rfl, rfl⟩

end Sys2Proof.Machine
end

section
/-! Routing and what rests on it (R430, R431, R440, R455): the one link that `ROUTE` answers is the one that
`PROCESS_PKT` and `CLIENT_SEND` hand their packet to, and nothing else sends. -/

namespace Sys2Proof.Machine

variable {s t : State} {k : LinkId} {i : Instr} {p pl bs : Bytes} {dst : Addr}

/-! ### ROUTE (R430) -/

/-- `ROUTE` ends with the answer of `route`; its operand has no influence (R430). -/
theorem exec_route (d : Addr) (s : State) : exec (.route d) s = .next (s.route.2.finish (s.route.1.map .link)) := rfl

theorem exec_route_of_ok {d : Addr} (h : s.route = (.ok k, t)) :
    exec (.route d) s = .next (t.respond (.ok (.link k))) := by
  rw [exec_route, h, Except.map, finish_ok]

theorem route_of_no_link (h : s.linkSet = []) : s.route = (.error .noLinksAvailable, s) := by
  rcases route_cases s with ⟨_, heq⟩ | ⟨k, hk, _⟩
  · exact heq
  · exact absurd h (List.ne_nil_of_mem hk)

/-- With a link to choose, `route` makes one draw and answers a member of the link set (R107, R430). -/
theorem route_of_links (h : s.linkSet ≠ []) : ∃ k ∈ s.linkSet, s.route = (.ok k, drawn s) := by
  rcases route_cases s with ⟨hempty, _⟩ | ⟨k, hk, heq⟩
  · exact absurd hempty h
  · exact ⟨k, hk, draw_snd s _ ▸ heq⟩

/-- Settles O31: a member stands at some index of the snapshot, which a sample selects; with one member there is no
other answer. -/
theorem routeResult : Obligations.RouteResult := by
  intro s d
  refine ⟨fun hempty => ?_, fun hlinks => ?_, fun k hk => ?_, fun r k rs hasc hr => ?_, fun k hone => ?_, fun _ => rfl⟩
  · rw [exec_route, route_of_no_link hempty, Except.map, finish_error, State.respond]
  · obtain ⟨k, hk, hroute⟩ := route_of_links hlinks
    exact ⟨k, hk, exec_route_of_ok hroute⟩
  · obtain ⟨r, hr, hget⟩ := List.getElem_of_mem ((mem_snapshot s k).2 hk)
    exact ⟨r, hr, fun rs => exec_route_of_ok (route_of_sample s (List.getElem?_eq_some_iff.2 ⟨hr, hget⟩))⟩
  · exact exec_route_of_ok (route_of_sample s (snapshot_ascending s hasc ▸ hr))
  · obtain ⟨j, hj, hroute⟩ := route_of_links (s := s) (by simp [hone])
    obtain rfl : j = k := by simpa [hone] using hj
    exact exec_route_of_ok hroute

/-! ### PROCESS_PKT (R431) and CLIENT_SEND (R455) -/

theorem sendRouted_of_route (h : s.route = (.ok k, t)) (bs : Bytes) :
    s.sendRouted bs = (.ok k, t.emit (.linkSend k bs)) := by
  simp only [State.sendRouted, h]

/-- A packet for another node goes unchanged to the link that `route` answers (R431, R442). -/
theorem processPacket_of_route (hp : 9 ≤ p.length) (hdst : destinationOf s.cfg.addrOrder p ≠ s.localAddr)
    (hroute : s.route = (.ok k, t)) : s.processPacket p = (.forwarded k, t.emit (.linkSend k p)) := by
  rw [State.processPacket, if_neg (by simpa using hp), show (9 : Nat) = 5 + 4 from rfl,
    decodeAddress_slice _ (by omega)]
  simp only [sendRouted_of_route hroute]
  exact if_neg hdst

/-- A payload that fits is framed and goes to the link that `route` answers (R455). -/
theorem sendData_of_route (hfits : pl.length ≤ 255) (hroute : s.route = (.ok k, t)) :
    s.sendData dst pl = (.ok k, t.emit (.linkSend k
      (encodeHeader s.cfg.addrOrder (BitVec.ofNat 8 pl.length) s.localAddr dst ++ pl))) := by
  rcases createPacket_cases s.cfg.addrOrder s.localAddr dst pl with ⟨hlarge, _⟩ | ⟨_, hpacket⟩
  · omega
  · simp only [State.sendData, hpacket, sendRouted_of_route hroute]

/-- Settles O32: the four clauses are the four things processing can do, and forwarding goes where `ROUTE` says. -/
theorem processPacketResult : Obligations.ProcessPacketResult := by
  intro s p
  refine ⟨fun hshort => ?_, fun hlong hown => exec_processPkt_of_own hlong hown,
    fun hlong hother hempty => exec_processPkt_of_no_link hlong hother hempty, fun hlong hother hlinks => ?_⟩
  · rcases processPacket_cases s p with ⟨_, heq⟩ | ⟨hlong, _⟩ | ⟨hlong, _⟩ | ⟨hlong, _⟩
    · rw [exec_processPkt, heq, processResult, finish_error, State.respond]
    all_goals omega
  · obtain ⟨k, hk, hroute⟩ := route_of_links hlinks
    refine ⟨k, hk, exec_route_of_ok hroute, ?_⟩
    rw [exec_processPkt, processPacket_of_route hlong hother hroute]
    rfl

/-- `CLIENT_SEND` ends with the link that `sendData` sent to, or its error (R455). -/
theorem exec_clientSend (s : State) (dst : Addr) (pl : Bytes) : exec (.clientSend dst pl) s =
    .next ((s.sendData dst pl).2.finish ((s.sendData dst pl).1.map .sent)) := rfl

/-- Settles O40: the framer's error comes before the router's, and what is sent is the framer's packet on the router's
link. -/
theorem clientSendResult : Obligations.ClientSendResult := by
  intro s dst pl
  refine ⟨fun hlarge => ?_, fun hfits hempty => ?_, fun hfits hlinks => ?_⟩
  · rcases sendData_cases s dst pl with ⟨_, heq⟩ | ⟨hfits, _⟩ | ⟨hfits, _⟩
    · rw [exec_clientSend, heq, Except.map, finish_error, State.respond]
    all_goals omega
  · rcases sendData_cases s dst pl with ⟨hlarge, _⟩ | ⟨_, _, heq⟩ | ⟨_, k, hk, _⟩
    · omega
    · rw [exec_clientSend, heq, Except.map, finish_error, State.respond]
    · exact absurd hempty (List.ne_nil_of_mem hk)
  · obtain ⟨k, hk, hroute⟩ := route_of_links hlinks
    refine ⟨_, k, hk, exec_createPkt_of_le hfits, exec_route_of_ok hroute, ?_⟩
    rw [exec_clientSend, sendData_of_route hfits hroute]
    rfl

/-! ### Who emits what (R440, R441, R631) -/

/-- `CLIENT_SEND` sends one packet with the node's own address as its source, or nothing (R455, R631). -/
theorem clientSend_outputs (h : exec (.clientSend dst pl) s = .next t) : t.outputs = s.outputs ∨
    ∃ k len, t.outputs = s.outputs ++
      [.linkSend k (encodeHeader s.cfg.addrOrder len s.localAddr dst ++ pl)] := by
  rw [exec_clientSend] at h
  cases h
  rw [finish_outputs]
  rcases sendData_cases s dst pl with ⟨_, heq⟩ | ⟨_, _, heq⟩ | ⟨_, k, _, heq⟩ <;> rw [heq]
  · exact .inl rfl
  · exact .inl rfl
  · exact .inr ⟨k, BitVec.ofNat 8 pl.length, by simp⟩

/-- Settles O41: the header that a client's packet carries is the one framed here. -/
theorem clientCannotSpoofSource : Obligations.ClientCannotSpoofSource := by
  intro s t dst pl p k h hout
  rcases clientSend_outputs h with hsame | ⟨j, len, hsent⟩
  · rw [hsame] at hout; simp at hout
  · obtain ⟨-, rfl⟩ : k = j ∧ p = _ := by simpa using hout.symm.trans hsent
    exact ⟨len, decodeHeader_encodeHeader_append ..⟩

/-- An operation other than the four that process or originate packets emits nothing (R440, R441). -/
theorem exec_outputs_of_quiet (h : exec i s = .next t) (hprocess : ∀ p, i ≠ .processPkt p)
    (hread : ∀ k bs, i ≠ .linkRx k bs) (hheader : ∀ k n a b, i ≠ .pktHeader k n a b)
    (hsend : ∀ d pl, i ≠ .clientSend d pl) : t.outputs = s.outputs := by
  cases i with
  | encAddr | encHdr | linkReset => cases h; rfl
  | decAddr | decHdr | createPkt | decPkt => cases h; exact finish_outputs s _
  | bufAppend k bs => rw [(execBufAppend_next h).2]; rfl
  | tryExtract k => cases h; exact tryExtract_outputs s k
  | route d => cases h; rw [finish_outputs]; exact route_outputs s
  | processPkt p => exact absurd rfl (hprocess p)
  | linkRx k bs => exact absurd rfl (hread k bs)
  | clientSend d pl => exact absurd rfl (hsend d pl)
  | pktHeader k n a b => exact absurd rfl (hheader k n a b)

/-- Settles O33: every operation sends as `Emits` says, and one that neither processes a packet nor reads a link is
`CLIENT_SEND`, which emits no `ClientReceive`, or emits nothing. -/
theorem outputsHaveTheirSource : Obligations.OutputsHaveTheirSource := by
  intro i s t h
  obtain ⟨l, hl, hsends⟩ := exec_emits h
  refine ⟨l, hl, hsends, fun hprocess hread hheader => ?_⟩
  have hquiet : (∀ d pl, i ≠ .clientSend d pl) → l = [] := fun hsend => by
    have hsame := exec_outputs_of_quiet h hprocess hread hheader hsend
    rwa [hl, List.append_right_eq_self] at hsame
  refine ⟨fun bs hmem => ?_, hquiet⟩
  by_cases hclient : ∃ d pl, i = .clientSend d pl
  · obtain ⟨d, pl, rfl⟩ := hclient
    rcases clientSend_outputs h with hsame | ⟨k, len, hsent⟩
    · rw [hl, List.append_right_eq_self] at hsame
      simp [hsame] at hmem
    · rw [hl, List.append_cancel_left_eq] at hsent
      simp [hsent] at hmem
  · rw [hquiet fun d pl heq => hclient ⟨d, pl, heq⟩] at hmem
    exact List.not_mem_nil hmem

end Sys2Proof.Machine
end

section
/-! A link-read event served whole (R450): what it does on an incomplete packet, on a complete one with and without
`RX_DRAIN`, and what it leaves unchanged; the two operations that write a buffer and process nothing (R420, R460). -/

namespace Sys2Proof.Machine

variable {s t : State} {k : LinkId} {p bs rest : Bytes}

/-- Settles O22: an append that is enabled writes its own buffer and responds. -/
theorem appendResult : Obligations.AppendResult := by
  intro s k bs hroom
  exact ⟨_, exec_bufAppend_of_room ((hasRoom_iff s k _).2 hroom), bufOf_setBuf_same s k _, fun j => bufOf_setBuf_ne s _⟩

/-- Settles O42: clearing is the write of the empty sequence. -/
theorem linkResetResult : Obligations.LinkResetResult := by
  intro s k
  exact ⟨_, rfl, bufOf_setBuf_same s k [], fun j => bufOf_setBuf_ne s []⟩

/-! ### What a link-read event leaves unchanged (R222, R450) -/

/-- Between two states of one frame only the buffers, the draws and the outputs differ. -/
theorem SameFrame.eq_update (h : SameFrame s t) : t = { s with
    buf := t.buf, rand := t.rand, randCount := t.randCount, outputs := t.outputs } := by
  obtain ⟨hcfg, haddr, hlinks, hinputs, hflows, hresponses⟩ := h
  cases t
  simp only at hcfg haddr hlinks hinputs hflows hresponses ⊢
  rw [hcfg, haddr, hlinks, hinputs, hflows, hresponses]

/-- A wire header arrives like any other bytes (log entry 13). -/
theorem exec_pktHeader (k : LinkId) (len : Byte) (src dst : Addr) (s : State) :
    exec (.pktHeader k len src dst) s = exec (.linkRx k (encodeHeader s.cfg.addrOrder len src dst)) s := rfl

/-- Settles O34: the frame of the event is the record, and the wire header is the event on its nine bytes. -/
theorem linkReadCompletes : Obligations.LinkReadCompletes := by
  intro s k bs hroom
  obtain ⟨hframe, hothers⟩ := linkRead_frame s k bs
  obtain ⟨l, hl, _⟩ := linkRead_emits s k bs
  have hexec := exec_linkRx_of_room ((hasRoom_iff s k _).2 hroom)
  have hupdate := hframe.eq_update
  rw [hl] at hupdate
  rw [hupdate] at hexec
  refine ⟨_, _, _, l, _, hexec, hothers, fun len src dst hbs => ?_⟩
  rw [exec_pktHeader, ← hbs]
  exact hexec

/-! ### Turn by turn (R450) -/

/-- With no complete packet the event is its append (R450). -/
theorem linkRead_of_incomplete (h : (s.bufOf k ++ bs).length < 9 + ((s.bufOf k ++ bs).headD 0).toNat) :
    s.linkRead k bs = ([], s.setBuf k (s.bufOf k ++ bs)) := by
  rw [State.linkRead, bufAppend_eq, rxLoop_none _ _ (.inr (by rwa [bufOf_setBuf_same]))]

/-- A buffer that was written reads back to the same write. -/
theorem setBuf_bufOf_of_buf {m : Memory} {b : Bytes} (h : s.buf = memSet m k b) : s.setBuf k (s.bufOf k) = s := by
  have hget : s.bufOf k = b := by rw [State.bufOf, h, memGet_memSet_same]
  rw [hget, State.setBuf, h, memSet_memSet, ← h]

/-- Processing leaves the rest of the stream in the buffer. -/
theorem bufOf_processPacket_setBuf (s : State) (k : LinkId) (p rest : Bytes) :
    ((s.setBuf k rest).processPacket p).2.bufOf k = rest := by
  rw [State.bufOf, (processPacket_frame _ p).2]
  exact bufOf_setBuf_same s k rest

/-- Where the stream begins with a packet, the event takes it off and processes it, and with `RX_DRAIN` it goes on as
one that brings no bytes (R450). -/
theorem linkRead_of_packet_append (hp : PacketWellFormed p) (hbuf : s.bufOf k ++ bs = p ++ rest) :
    s.linkRead k bs =
      let r := (s.setBuf k rest).processPacket p
      if s.cfg.rxDrain then (r.1 :: (r.2.linkRead k []).1, (r.2.linkRead k []).2) else ([r.1], r.2) := by
  have hhead := head_packet_length hp rest
  have hcomplete : 9 + ((p ++ rest).headD 0).toNat ≤ (p ++ rest).length := by
    rw [hhead, List.length_append]; exact Nat.le_add_right ..
  have hagain : ((s.setBuf k rest).processPacket p).2.linkRead k [] =
      ((s.setBuf k rest).processPacket p).2.rxLoop k (rest.length + 1) := by
    rw [State.linkRead, bufAppend_eq, List.append_nil, setBuf_bufOf_of_buf (processPacket_frame _ p).2, State.bufLen,
      bufOf_processPacket_setBuf]
  have hfuel : ((s.setBuf k rest).processPacket p).2.rxLoop k (p ++ rest).length =
      ((s.setBuf k rest).processPacket p).2.rxLoop k (rest.length + 1) := by
    refine rxLoop_fuel _ k _ _ (by rw [bufOf_processPacket_setBuf]; exact Nat.lt_succ_self _) ?_
    have := (wellFormed_length_bounds hp).1
    rw [List.length_append]
    omega
  rw [State.linkRead, bufAppend_eq, State.bufLen, bufOf_setBuf_same, hbuf,
    rxLoop_some _ _ (by rw [bufOf_setBuf_same]; exact hcomplete), bufOf_setBuf_same, hhead, List.take_left,
    List.drop_left, setBuf_setBuf]
  simp only [hfuel, hagain, setBuf_cfg]

/-- Without `RX_DRAIN` the event ends after one packet (R450). -/
theorem linkRead_of_packet_once (honce : s.cfg.rxDrain = false) (hp : PacketWellFormed p)
    (hbuf : s.bufOf k ++ bs = p ++ rest) : s.linkRead k bs =
      ([((s.setBuf k rest).processPacket p).1], ((s.setBuf k rest).processPacket p).2) := by
  rw [linkRead_of_packet_append hp hbuf, honce]
  rfl

/-- With `RX_DRAIN` the event goes on as one that brings no bytes (R450). -/
theorem linkRead_of_packet_drain (hdrain : s.cfg.rxDrain = true) (hp : PacketWellFormed p)
    (hbuf : s.bufOf k ++ bs = p ++ rest) : s.linkRead k bs =
      (((s.setBuf k rest).processPacket p).1 :: (((s.setBuf k rest).processPacket p).2.linkRead k []).1,
        (((s.setBuf k rest).processPacket p).2.linkRead k []).2) := by
  rw [linkRead_of_packet_append hp hbuf, hdrain]
  exact if_pos rfl

theorem respond_of_responses (h : t.responses = s.responses) (r : Response) :
    t.respond r = { t with responses := s.responses ++ [r] } := by
  rw [State.respond, h]

/-- Settles O36: a complete packet at the head of the stream is its first packet, and what the event does after it is
the event that brings no bytes. -/
theorem linkReadTurnByTurn : Obligations.LinkReadTurnByTurn := by
  intro s k bs hroom b l
  have hexec := exec_linkRx_of_room ((hasRoom_iff s k _).2 hroom)
  refine ⟨fun hinc => ⟨_, ?_, bufOf_setBuf_same s k b, fun j => bufOf_setBuf_ne s b⟩, fun hcomplete =>
    ⟨memSet s.buf k (b.drop (9 + l)), memGet_memSet_same .., fun j hj => memGet_memSet_ne _ _ hj, ?_⟩⟩
  · rw [hexec, linkRead_of_incomplete (show b.length < 9 + l by omega)]
    rfl
  intro r
  have hwf : PacketWellFormed (b.take (9 + l)) := take_wellFormed hcomplete
  have hbuf : s.bufOf k ++ bs = b.take (9 + l) ++ b.drop (9 + l) := (List.take_append_drop (9 + l) b).symm
  have hr : (s.setBuf k (b.drop (9 + l))).processPacket (b.take (9 + l)) = r := rfl
  have hframe : SameFrame s r.2 := (setBuf_frame s k _).trans (processPacket_frame (s.setBuf k _) _).1
  have hleft : r.2.bufOf k = b.drop (9 + l) := bufOf_processPacket_setBuf s k _ _
  clear_value r
  refine ⟨fun honce => ?_, fun hdrain => ?_⟩
  · rw [hexec, linkRead_of_packet_once honce hwf hbuf, hr]
    exact congrArg Host.Outcome.next (respond_of_responses hframe.responses _)
  · have hroom' : r.2.hasRoom k ([] : Bytes).length = true := by
      refine (hasRoom_iff r.2 k _).2 fun c hc => ?_
      have hb := hroom c (hframe.cfg ▸ hc)
      rw [hleft, List.length_drop, List.length_append, List.length_nil]
      omega
    have hresp : (r.2.linkRead k []).2.responses = s.responses :=
      (linkRead_frame r.2 k []).1.responses.trans hframe.responses
    refine ⟨_, _, exec_linkRx_of_room hroom', by rw [respond_responses, hresp], ?_⟩
    rw [hexec, linkRead_of_packet_drain hdrain hwf hbuf, hr]
    exact congrArg Host.Outcome.next (respond_of_responses hresp _)

/-- Settles O35: nine bytes that declare a payload are incomplete, and nine that declare none are a packet. -/
theorem wireHeaderArrives : Obligations.WireHeaderArrives := by
  intro s k len src dst hempty hcap
  have hroom : s.hasRoom k (encodeHeader s.cfg.addrOrder len src dst).length = true := by
    refine (hasRoom_iff s k _).2 fun c hc => ?_
    rw [hempty, encodeHeader_length]
    exact hcap c hc
  rw [exec_pktHeader]
  refine ⟨fun hlen => ⟨_, ?_, bufOf_setBuf_same s k _, fun j => bufOf_setBuf_ne s _⟩, fun hlen hdst =>
    ⟨_, ?_, bufOf_setBuf_same s k [], fun j => bufOf_setBuf_ne s []⟩⟩
  · have hpos : 0 < len.toNat := Nat.pos_of_ne_zero fun h => hlen (BitVec.eq_of_toNat_eq h)
    rw [exec_linkRx_of_room hroom, linkRead_of_incomplete, hempty, List.nil_append]
    · rfl
    · rw [hempty, List.nil_append, encodeHeader_length, encodeHeader_head]
      omega
  · have hp : PacketWellFormed (encodeHeader s.cfg.addrOrder len src dst) :=
      wellFormed_of_bare_header (encodeHeader_length ..) hlen
    have hown : destinationOf s.cfg.addrOrder (encodeHeader s.cfg.addrOrder len src dst) = s.localAddr := by
      simpa [hdst] using destinationOf_encodeHeader_append s.cfg.addrOrder len src dst []
    rw [exec_linkRx_of_own hroom hempty hp hown, List.drop_eq_nil_of_le (encodeHeader_length ..).le]
    rfl

/-! ### Draining (R425, R450) -/

/-- A stream is packets one after another and at its end an incomplete one (R423). -/
theorem stream_packets (b : Bytes) : ∃ (qs : List Bytes) (rest : Bytes), (∀ q ∈ qs, PacketWellFormed q) ∧
    b = qs.flatten ++ rest ∧ rest.length < 9 + (rest.headD 0).toNat := by
  induction hn : b.length using Nat.strong_induction_on generalizing b with
  | _ n ih =>
    rcases lt_or_ge b.length (9 + (b.headD 0).toNat) with hinc | hcomplete
    · exact ⟨[], b, nofun, rfl, hinc⟩
    · have hshorter : (b.drop (9 + (b.headD 0).toNat)).length < n := by rw [List.length_drop]; omega
      obtain ⟨qs, rest, hqs, hsplit, hinc⟩ := ih _ hshorter _ rfl
      refine ⟨b.take (9 + (b.headD 0).toNat) :: qs, rest,
        List.forall_mem_cons.2 ⟨take_wellFormed hcomplete, hqs⟩, ?_, hinc⟩
      rw [List.flatten_cons, List.append_assoc, ← hsplit, List.take_append_drop]

/-- A draining event leaves of the stream what follows its last packet (R450). -/
theorem bufOf_linkRead_of_drain (hdrain : s.cfg.rxDrain = true) {qs : List Bytes} (hqs : ∀ q ∈ qs, PacketWellFormed q)
    (hbuf : s.bufOf k ++ bs = qs.flatten ++ rest) (hrest : rest.length < 9 + (rest.headD 0).toNat) :
    (s.linkRead k bs).2.bufOf k = rest := by
  induction qs generalizing s bs with
  | nil =>
    have hstream : s.bufOf k ++ bs = rest := hbuf
    rw [linkRead_of_incomplete (by rwa [hstream]), bufOf_setBuf_same, hstream]
  | cons q qs ih =>
    rw [List.forall_mem_cons] at hqs
    rw [List.flatten_cons, List.append_assoc] at hbuf
    rw [linkRead_of_packet_drain hdrain hqs.1 hbuf]
    refine ih ?_ hqs.2 ?_
    · rw [(processPacket_frame _ q).1.cfg]; exact hdrain
    · rw [bufOf_processPacket_setBuf, List.append_nil]

/-- Settles O37: what a draining event leaves is an incomplete packet, so an attempt on it gives `None`. -/
theorem drainingLeavesNoPacket : Obligations.DrainingLeavesNoPacket := by
  intro s t k bs hdrain h
  obtain ⟨_, rfl⟩ := receive_next h
  obtain ⟨qs, rest, hqs, hbuf, hrest⟩ := stream_packets (s.bufOf k ++ bs)
  have hleft := bufOf_linkRead_of_drain hdrain hqs hbuf hrest
  refine ⟨?_, exec_tryExtract_of_incomplete (.inr (by rwa [bufOf_finish, hleft]))⟩
  have hbyte : (rest.headD 0).toNat < 256 := (rest.headD 0).isLt
  rw [bufOf_finish, hleft]
  omega

end Sys2Proof.Machine
end

section
/-! What the processing of packets rests on (R431, R442): the draws, the address and the link set, and not the buffers,
the events in progress or `RX_DRAIN`. From this, the two settings of `RX_DRAIN` agree up to delay (R465). -/

namespace Sys2Proof.Machine

variable {s t u : State} {k : LinkId} {p bs rest : Bytes} {ps qs : List Bytes}

/-! ### Two nodes that process packets alike -/

/-- Two nodes that the processing of a packet cannot tell apart, with the same outputs so far. -/
structure Alike (s t : State) : Prop where
  addrOrder : t.cfg.addrOrder = s.cfg.addrOrder
  snapshotFirst : t.cfg.snapshotFirst = s.cfg.snapshotFirst
  localAddr : t.localAddr = s.localAddr
  linkSet : t.linkSet = s.linkSet
  rand : t.rand = s.rand
  randCount : t.randCount = s.randCount
  outputs : t.outputs = s.outputs

theorem Alike.symm (h : Alike s t) : Alike t s :=
  ⟨h.1.symm, h.2.symm, h.3.symm, h.4.symm, h.5.symm, h.6.symm, h.7.symm⟩

theorem Alike.trans (h : Alike s t) (g : Alike t u) : Alike s u :=
  ⟨g.1.trans h.1, g.2.trans h.2, g.3.trans h.3, g.4.trans h.4, g.5.trans h.5, g.6.trans h.6, g.7.trans h.7⟩

/-- `s` with the draws and the outputs of `u`: all that processing a packet at `s` can change. -/
def State.withWorkOf (s u : State) : State :=
  { s with rand := u.rand, randCount := u.randCount, outputs := u.outputs }

theorem Alike.withWorkOf (h : Alike s t) (hframe : SameFrame s u) : Alike u (t.withWorkOf u) :=
  ⟨h.1.trans (congrArg Config.addrOrder hframe.cfg).symm, h.2.trans (congrArg Config.snapshotFirst hframe.cfg).symm,
    h.3.trans hframe.localAddr.symm, h.4.trans hframe.linkSet.symm, rfl, rfl, rfl⟩

theorem Alike.snapshot (h : Alike s t) : t.snapshot = s.snapshot := by
  rw [State.snapshot, State.snapshot, h.snapshotFirst, h.linkSet]

theorem Alike.draw (h : Alike s t) (n : Nat) : t.draw n = ((s.draw n).1, t.withWorkOf (s.draw n).2) := by
  rw [State.draw, h.rand, h.randCount, State.draw]
  cases s.rand with
  | nil => simp only [State.withWorkOf, ← h.outputs]
  | cons r rs => simp only [State.withWorkOf, ← h.randCount, ← h.outputs]

theorem Alike.withWorkOf_self (h : Alike s t) : t.withWorkOf s = t := by
  rw [State.withWorkOf, ← h.rand, ← h.randCount, ← h.outputs]

theorem Alike.route (h : Alike s t) : t.route = (s.route.1, t.withWorkOf s.route.2) := by
  rw [State.route, h.snapshot, State.route]
  cases s.snapshot with
  | nil => rw [h.withWorkOf_self]
  | cons k0 ks => simp only [h.draw]

theorem Alike.sendRouted (h : Alike s t) (bs : Bytes) :
    t.sendRouted bs = ((s.sendRouted bs).1, t.withWorkOf (s.sendRouted bs).2) := by
  rw [State.sendRouted, h.route, State.sendRouted]
  rcases s.route with ⟨_ | _, _⟩ <;> rfl

/-- Two nodes that are alike process a packet in the same way (R431, R442). -/
theorem Alike.processPacket (h : Alike s t) (p : Bytes) :
    t.processPacket p = ((s.processPacket p).1, t.withWorkOf (s.processPacket p).2) := by
  simp only [State.processPacket, h.addrOrder, h.localAddr, h.sendRouted]
  split
  · rw [h.withWorkOf_self]
  · split
    · rw [h.withWorkOf_self]
    · split
      · simp only [State.withWorkOf, State.emit, ← h.rand, ← h.randCount, ← h.outputs]
      · rcases s.sendRouted p with ⟨_ | _, _⟩ <;> rfl

theorem Alike.processed (h : Alike s t) (p : Bytes) :
    (t.processPacket p).1 = (s.processPacket p).1 ∧ Alike (s.processPacket p).2 (t.processPacket p).2 := by
  rw [h.processPacket]
  exact ⟨rfl, h.withWorkOf (processPacket_frame s p).1⟩

theorem alike_setBuf (s : State) (k : LinkId) (b : Bytes) : Alike s (s.setBuf k b) :=
  ⟨rfl, rfl, rfl, rfl, rfl, rfl, rfl⟩

theorem alike_respond (s : State) (r : Response) : Alike s (s.respond r) := ⟨rfl, rfl, rfl, rfl, rfl, rfl, rfl⟩

/-! ### Packets processed one after another -/

/-- A list of packets given to `PROCESS_PKT` in order, with their outcomes. -/
def State.processAll (s : State) : List Bytes → List PktOutcome × State
  | [] => ([], s)
  | p :: ps => ((s.processPacket p).1 :: ((s.processPacket p).2.processAll ps).1,
      ((s.processPacket p).2.processAll ps).2)

theorem processAll_append (s : State) (ps qs : List Bytes) : s.processAll (ps ++ qs) =
    ((s.processAll ps).1 ++ ((s.processAll ps).2.processAll qs).1, ((s.processAll ps).2.processAll qs).2) := by
  induction ps generalizing s with
  | nil => rfl
  | cons p ps ih => simp only [List.cons_append, State.processAll, ih]

theorem Alike.processAll (h : Alike s t) (ps : List Bytes) :
    (t.processAll ps).1 = (s.processAll ps).1 ∧ Alike (s.processAll ps).2 (t.processAll ps).2 := by
  induction ps generalizing s t with
  | nil => exact ⟨rfl, h⟩
  | cons p ps ih =>
    obtain ⟨hout, hstate⟩ := h.processed p
    obtain ⟨houts, hstates⟩ := ih hstate
    exact ⟨congrArg₂ List.cons hout houts, hstates⟩

theorem processAll_emits (s : State) (ps : List Bytes) : Emits s (s.processAll ps).2 := by
  induction ps generalizing s with
  | nil => exact .nothing rfl
  | cons p ps ih => exact (processPacket_emits s p).trans (processPacket_frame s p).1.linkSet (ih _)

/-- A draining event processes every packet of its stream in order (R450). -/
theorem linkRead_of_drain (hdrain : s.cfg.rxDrain = true) (hqs : ∀ q ∈ qs, PacketWellFormed q)
    (hbuf : s.bufOf k ++ bs = qs.flatten ++ rest) (hrest : rest.length < 9 + (rest.headD 0).toNat) (h : Alike u s) :
    (s.linkRead k bs).1 = (u.processAll qs).1 ∧ Alike (u.processAll qs).2 (s.linkRead k bs).2 := by
  induction qs generalizing s u bs with
  | nil =>
    have hstream : s.bufOf k ++ bs = rest := hbuf
    rw [linkRead_of_incomplete (by rwa [hstream])]
    exact ⟨rfl, h.trans (alike_setBuf s k _)⟩
  | cons q qs ih =>
    rw [List.forall_mem_cons] at hqs
    rw [List.flatten_cons, List.append_assoc] at hbuf
    obtain ⟨hout, hstate⟩ := (h.trans (alike_setBuf s k (qs.flatten ++ rest))).processed q
    have hdrain' : ((s.setBuf k (qs.flatten ++ rest)).processPacket q).2.cfg.rxDrain = true := by
      rw [(processPacket_frame _ q).1.cfg]; exact hdrain
    obtain ⟨houts, hstates⟩ := ih hdrain' hqs.2 (by rw [bufOf_processPacket_setBuf, List.append_nil]) hstate
    rw [linkRead_of_packet_drain hdrain hqs.1 hbuf]
    exact ⟨congrArg₂ List.cons hout houts, hstates⟩

/-- An event that does not drain processes the first packet of its stream, or, where there is none, only appends
(R450). -/
theorem linkRead_of_once (honce : s.cfg.rxDrain = false) (hps : ∀ p ∈ ps, PacketWellFormed p)
    (hbuf : s.bufOf k ++ bs = ps.flatten ++ rest) (hrest : ps = [] → rest.length < 9 + (rest.headD 0).toNat) :
    (s.linkRead k bs).2.bufOf k = ps.tail.flatten ++ rest ∧
    (s.processAll ps).1 = (s.linkRead k bs).1 ++ ((s.linkRead k bs).2.processAll ps.tail).1 ∧
    Alike ((s.linkRead k bs).2.processAll ps.tail).2 (s.processAll ps).2 := by
  cases ps with
  | nil =>
    have hstream : s.bufOf k ++ bs = rest := hbuf
    rw [linkRead_of_incomplete (by rw [hstream]; exact hrest rfl), hstream]
    exact ⟨bufOf_setBuf_same s k rest, rfl, (alike_setBuf s k rest).symm⟩
  | cons p ps =>
    rw [List.flatten_cons, List.append_assoc] at hbuf
    obtain ⟨hout, hstate⟩ := (alike_setBuf s k (ps.flatten ++ rest)).symm.processed p
    obtain ⟨houts, hstates⟩ := hstate.processAll ps
    rw [linkRead_of_packet_once honce (hps p (by simp)) hbuf]
    exact ⟨bufOf_processPacket_setBuf s k p _, congrArg₂ List.cons hout houts, hstates⟩

/-! ### The node that is behind (R465) -/

/-- Node `u`, which takes off one packet at an event, is behind node `t`, which drains: of its stream `b` on link `k` it
has still to take off the packets `ps`, and with those processed it has done what `t` has. -/
structure Behind (k : LinkId) (ps : List Bytes) (b : Bytes) (u t : State) : Prop where
  once : u.cfg.rxDrain = false
  drain : t.cfg.rxDrain = true
  bufCap : t.cfg.bufCap = u.cfg.bufCap
  wellFormed : ∀ p ∈ ps, PacketWellFormed p
  stream : b = ps.flatten ++ t.bufOf k
  others : ∀ j, j ≠ k → u.bufOf j = t.bufOf j
  work : Alike (u.processAll ps).2 t
  outcomes : receivedOutcomes k t.responses = receivedOutcomes k u.responses ++ (u.processAll ps).1

/-- The outcomes of link `k` grow by those of an event that completes there. -/
theorem receivedOutcomes_respond_linkRead (s : State) (k : LinkId) (bs : Bytes) (os : List PktOutcome) :
    receivedOutcomes k ((s.linkRead k bs).2.respond (.ok (.outcomes k os))).responses =
      receivedOutcomes k s.responses ++ os := by
  rw [respond_responses, (linkRead_frame s k bs).1.responses, receivedOutcomes_append, receivedOutcomes_own]

/-- Bytes that reach the draining node first: it takes off every packet that is complete with them. -/
theorem Behind.arrive (h : Behind k ps (u.bufOf k) u t) (hroom : u.hasRoom k bs.length = true) :
    ∃ t' qs, exec (.linkRx k bs) t = .next t' ∧ Behind k (ps ++ qs) (u.bufOf k ++ bs) u t' ∧
      (t'.bufOf k).length < 9 + ((t'.bufOf k).headD 0).toNat := by
  have hroom' : t.hasRoom k bs.length = true := by
    refine (hasRoom_iff t k _).2 fun c hc => le_trans ?_ ((hasRoom_iff u k _).1 hroom c (h.bufCap ▸ hc))
    rw [h.stream, List.length_append]
    omega
  obtain ⟨qs, rest, hqs, hbuf, hrest⟩ := stream_packets (t.bufOf k ++ bs)
  obtain ⟨hframe, hothers⟩ := linkRead_frame t k bs
  have hleft := bufOf_linkRead_of_drain h.drain hqs hbuf hrest
  obtain ⟨houts, hstate⟩ := linkRead_of_drain h.drain hqs hbuf hrest h.work
  have happend := processAll_append u ps qs
  refine ⟨_, qs, exec_linkRx_of_room hroom', ?_, by rwa [bufOf_respond, hleft]⟩
  exact {
    once := h.once
    drain := by rw [respond_cfg, hframe.cfg]; exact h.drain
    bufCap := by rw [respond_cfg, hframe.cfg]; exact h.bufCap
    wellFormed := List.forall_mem_append.2 ⟨h.wellFormed, hqs⟩
    stream := by
      rw [bufOf_respond, hleft, h.stream, List.append_assoc, hbuf, List.flatten_append, List.append_assoc]
    others := fun j hj => (h.others j hj).trans (hothers j hj).symm
    work := by rw [happend]; exact hstate.trans (alike_respond _ _)
    outcomes := by rw [receivedOutcomes_respond_linkRead, h.outcomes, houts, happend, List.append_assoc] }

/-- The node that is behind takes off the first packet it is behind by, or, where there is none, only appends. -/
theorem Behind.read (h : Behind k ps (u.bufOf k ++ bs) u t)
    (hinc : ps = [] → (t.bufOf k).length < 9 + ((t.bufOf k).headD 0).toNat) (hroom : u.hasRoom k bs.length = true) :
    ∃ u', exec (.linkRx k bs) u = .next u' ∧ Behind k ps.tail (u'.bufOf k) u' t ∧ u'.hasRoom k 0 = true := by
  obtain ⟨hframe, hothers⟩ := linkRead_frame u k bs
  obtain ⟨hleft, houts, hstate⟩ := linkRead_of_once h.once h.wellFormed h.stream hinc
  refine ⟨_, exec_linkRx_of_room hroom, ?_, ?_⟩
  · obtain ⟨houts', hstate'⟩ :=
      (alike_respond (u.linkRead k bs).2 (.ok (.outcomes k (u.linkRead k bs).1))).processAll ps.tail
    exact {
      once := by rw [respond_cfg, hframe.cfg]; exact h.once
      drain := h.drain
      bufCap := by rw [respond_cfg, hframe.cfg]; exact h.bufCap
      wellFormed := fun p hp => h.wellFormed p (List.mem_of_mem_tail hp)
      stream := hleft
      others := fun j hj => (hothers j hj).trans (h.others j hj)
      work := (hstate'.symm.trans hstate).trans h.work
      outcomes := by
        rw [receivedOutcomes_respond_linkRead, h.outcomes, houts, houts', List.append_assoc] }
  · refine (hasRoom_iff _ k _).2 fun c hc => ?_
    have hfull := (hasRoom_iff u k _).1 hroom c (hframe.cfg ▸ hc)
    have hstream := congrArg List.length h.stream
    have hshorter : ps.tail.flatten.length ≤ ps.flatten.length := by cases ps <;> simp
    rw [bufOf_respond, hleft, List.length_append]
    rw [List.length_append, List.length_append] at hstream
    omega

/-- Along a sequence of events the node that takes off one packet at each stays behind the one that drains. -/
theorem Behind.run (arrivals : List Bytes) (h : Behind k ps (s.bufOf k) s t) (hroom : ps ≠ [] → s.hasRoom k 0 = true)
    (hu : execAll (arrivals.map (.linkRx k)) s = .next u) :
    ∃ t' qs, execAll (arrivals.map (.linkRx k)) t = .next t' ∧ Behind k qs (u.bufOf k) u t' ∧
      (qs ≠ [] → u.hasRoom k 0 = true) := by
  induction arrivals generalizing s t ps with
  | nil => cases hu; exact ⟨t, ps, rfl, h, hroom⟩
  | cons bs arrivals ih =>
    obtain ⟨m, hm, hmu⟩ := execAll_cons_next.1 hu
    obtain ⟨hroombs, _⟩ := receive_next hm
    obtain ⟨t₁, qs, ht₁, hbehind, hinc⟩ := h.arrive hroombs
    obtain ⟨m', hm', hbehind', hroom'⟩ := hbehind.read (fun _ => hinc) hroombs
    obtain rfl : m' = m := Host.Outcome.next.inj (hm'.symm.trans hm)
    obtain ⟨t', qs', ht', hlast⟩ := ih hbehind' (fun _ => hroom') hmu
    exact ⟨t', qs', execAll_cons_next.2 ⟨t₁, ht₁, ht'⟩, hlast⟩

/-- Events that bring no bytes, one for each packet it is behind by, bring the slower node to where the other is. -/
theorem Behind.catchUp (h : Behind k ps (u.bufOf k) u t) (hroom : ps ≠ [] → u.hasRoom k 0 = true) :
    ∃ v, execAll (List.replicate ps.length (.linkRx k [])) u = .next v ∧ Behind k [] (v.bufOf k) v t := by
  induction ps generalizing u with
  | nil => exact ⟨u, rfl, h⟩
  | cons p ps ih =>
    have hstream : Behind k (p :: ps) (u.bufOf k ++ []) u t := by rwa [List.append_nil]
    obtain ⟨u', hu', hbehind, hroom'⟩ := hstream.read nofun (hroom (by simp))
    obtain ⟨v, hv, hlast⟩ := ih hbehind fun _ => hroom'
    exact ⟨v, execAll_cons_next.2 ⟨u', hu', hv⟩, hlast⟩

/-- Settles O39: `Behind` holds of the two settings of one node, along the sequence and through the events that catch
up. -/
theorem drainSettingsAgreeUpToDelay : Obligations.DrainSettingsAgreeUpToDelay := by
  intro s u k arrivals hu
  have hstart : Behind k [] (s.bufOf k) { s with cfg := { s.cfg with rxDrain := false } }
      { s with cfg := { s.cfg with rxDrain := true } } :=
    ⟨rfl, rfl, rfl, nofun, rfl, fun _ _ => rfl, ⟨rfl, rfl, rfl, rfl, rfl, rfl, rfl⟩, (List.append_nil _).symm⟩
  obtain ⟨t, ps, ht, hbehind, hroom⟩ := hstart.run arrivals (absurd rfl) hu
  obtain ⟨v, hv, hcaught⟩ := hbehind.catchUp hroom
  obtain ⟨l, hl, _⟩ := processAll_emits u ps
  refine ⟨t, ht, ⟨l, (hbehind.work.outputs.trans hl).symm⟩, ⟨_, hbehind.outcomes.symm⟩, ps, hbehind.wellFormed,
    hbehind.stream, v, hv, hcaught.work.outputs.symm, ?_, hcaught.work.rand.symm, hcaught.work.randCount.symm,
    fun j => ?_⟩
  · exact (hcaught.outcomes.trans (List.append_nil _)).symm
  · by_cases hj : j = k
    · subst hj; exact hcaught.stream
    · exact hcaught.others j hj

end Sys2Proof.Machine
end

section
/-! One event at a time (R220 to R224, R311, R312, R450): which event of each kind is enabled, what the step that serves
it does, and what a step does where none is enabled. -/

namespace Sys2Proof.Machine

variable {s : State} {e : Event} {i : Instr} {k : LinkId} {n : Nat} {w : List LinkId} {bs : Bytes} {f : RxFlow}
  {rest : List Event} {x : Transfer}

/-! ### Transfers (R311, R312) -/

theorem eventReady_of_decode (hdec : decode s.cfg.addrOrder x = .ok i) :
    s.eventReady w (.transfer x) = s.instrReady w i := by
  simp only [State.eventReady, hdec]

/-- Settles O6: with its link free and room for its append the operation is enabled at the head of the inputs. -/
theorem stepRunsDecodedOperation : Obligations.StepRunsDecodedOperation := by
  intro s x rest i hin hdec hwf hfree hroom
  have hready : s.eventReady [] (.transfer x) = true := by
    rw [eventReady_of_decode hdec]
    exact instrReady_of hfree (fun j _ => List.not_mem_nil) fun j n ha => (hasRoom_iff s j n).2 (hroom j n ha)
  rw [step_of_head_ready hin hready]
  exact runTransfer_of_decode (s := { s with inputs := rest }) hdec hwf

theorem decode_reserved {o : AddrOrder} {op : BitVec 4} (args : List Operand)
    (hop : op = 0x0#4 ∨ op = 0xE#4 ∨ op = 0xF#4) : decode o (.cmd op args) = .error (.reservedOpcode op) := by
  simp only [decode, ofBits_eq_none hop]

/-- Settles O7: a reserved code waits for nothing and is answered with the one response. -/
theorem reservedCodeAnswersBadCommand : Obligations.ReservedCodeAnswersBadCommand := by
  intro s op args rest hin hop
  have hdec : decode s.cfg.addrOrder (.cmd op args) = .error (.reservedOpcode op) := decode_reserved args hop
  have hready : s.eventReady [] (.transfer (.cmd op args)) = true := by simp only [State.eventReady, hdec]
  rw [step_of_head_ready hin hready]
  simp only [runEvent, runTransfer, hdec]
  exact ⟨rfl, rfl⟩

/-! ### Events that wait (R220, R221, R420) -/

/-- Settles O8: without events and without a link-read event in progress the step finds nothing to serve. -/
theorem idleNodeHoldsItsState : Obligations.IdleNodeHoldsItsState := by
  intro s hin hflows
  exact step_of_idle (by rw [hin]; rfl) hflows

/-- One event that is not enabled is no event to serve. -/
theorem pick_singleton_of_not_ready (hin : s.inputs = [e]) (h : s.eventReady [] e = false) :
    s.pick [] s.inputs = none := by
  rw [hin, pick_cons_of_not_ready h]
  rfl

/-- While a link-read event is in progress on its link an operation is not enabled (R221). -/
theorem instrReady_of_flow (hlink : i.link? = some k) (hflow : s.flowOf k ≠ none) : s.instrReady w i = false := by
  have hbusy : s.linkFree k = false := by rwa [State.linkFree, Option.isNone_eq_false_iff, Option.isSome_iff_ne_none]
  simp only [State.instrReady, hlink, hbusy, Bool.false_and]

theorem flowOf_of_mem (h : f ∈ s.flows) : s.flowOf f.link ≠ none := by
  simp only [State.flowOf, ne_eq, List.find?_eq_none, not_forall]
  exact ⟨f, h, by simp⟩

/-- A primitive step of a link-read event changes nothing of the frame but the events in progress and the responses
(R450). -/
theorem rxAdvanceFlow_frame (s : State) (f : RxFlow) :
    (s.rxAdvanceFlow f).cfg = s.cfg ∧ (s.rxAdvanceFlow f).localAddr = s.localAddr ∧
    (s.rxAdvanceFlow f).linkSet = s.linkSet ∧ (s.rxAdvanceFlow f).inputs = s.inputs := by
  cases hp : f.pending with
  | none =>
    by_cases hc : 9 + ((s.bufOf f.link).headD 0).toNat ≤ (s.bufOf f.link).length
    · rw [rxAdvanceFlow_extracts s hp hc]; exact ⟨rfl, rfl, rfl, rfl⟩
    · rw [rxAdvanceFlow_ends s hp (by omega)]; exact ⟨rfl, rfl, rfl, rfl⟩
  | some p =>
    obtain ⟨hframe, _⟩ := processPacket_frame s p
    rw [rxAdvanceFlow_processes s hp]
    split <;> exact ⟨hframe.cfg, hframe.localAddr, hframe.linkSet, hframe.inputs⟩

/-- Settles O9: the operation is not enabled, so the step is the next one of the event it waits for, which takes no
event off the inputs. -/
theorem sameLinkOperationWaits : Obligations.SameLinkOperationWaits := by
  intro s x i k f hin hdec hlink hflows hf
  have hflow : s.flowOf k ≠ none := hf ▸ flowOf_of_mem (by simp [hflows])
  have hready : s.eventReady [] (.transfer x) = false := by
    rw [eventReady_of_decode hdec]
    exact instrReady_of_flow hlink hflow
  obtain ⟨_, _, _, hinputs⟩ := rxAdvanceFlow_frame s f
  exact ⟨step_of_oldest_flow (pick_singleton_of_not_ready hin hready) hflows, hinputs.trans hin⟩

/-- An operation whose append finds no room is not enabled (R420). -/
theorem instrReady_of_full (happ : appendOf i = some (k, n)) (hfull : s.hasRoom k n = false) :
    s.instrReady w i = false := by
  simp only [State.instrReady, happ, State.appendReady, hfull, Bool.false_and, Bool.and_false]

theorem hasRoom_eq_false {c : Nat} (hcap : s.cfg.bufCap = some c) (h : c < (s.bufOf k).length + n) :
    s.hasRoom k n = false := by
  rw [Bool.eq_false_iff, ne_eq, hasRoom_iff]
  exact fun hroom => absurd (hroom c hcap) h.not_ge

theorem receive_of_full (hfull : s.hasRoom k bs.length = false) : s.receive k bs = .fault (.appendNotEnabled k) := by
  rcases receive_cases s k bs with ⟨hroom, _⟩ | ⟨_, heq⟩
  · rw [hfull] at hroom; nomatch hroom
  · exact heq

theorem execBufAppend_of_full (hfull : s.hasRoom k bs.length = false) :
    execBufAppend k bs s = .fault (.appendNotEnabled k) := by
  rw [execBufAppend, hfull]
  rfl

/-- One operation that is presented while its append finds no room: nothing happens. -/
theorem step_of_full (hin : s.inputs = [.transfer x]) (hflows : s.flows = []) (hdec : decode s.cfg.addrOrder x = .ok i)
    (happ : appendOf i = some (k, n)) (hfull : s.hasRoom k n = false) : step s = .next s := by
  refine step_of_idle (pick_singleton_of_not_ready hin ?_) hflows
  rw [eventReady_of_decode hdec]
  exact instrReady_of_full happ hfull

/-- Settles O10: each way bytes arrive needs room for all of them, nine for a wire header. -/
theorem fullBufferHoldsArrivingBytes : Obligations.FullBufferHoldsArrivingBytes := by
  intro s k bs c hcap
  refine ⟨fun hbs => ?_, fun hheader => ?_⟩
  · have hfull : s.hasRoom k bs.length = false := hasRoom_eq_false hcap hbs
    refine ⟨execBufAppend_of_full hfull, receive_of_full hfull, fun e he hin hflows => ?_⟩
    simp only [List.mem_cons, List.not_mem_nil, or_false] at he
    rcases he with rfl | rfl | rfl | rfl
    · exact step_of_full (i := .linkRx k bs) hin hflows rfl rfl hfull
    · exact step_of_full (i := .linkRx k bs) hin hflows (decodeOfEncode _ (.linkRx k bs)) rfl hfull
    · exact step_of_full (i := .bufAppend k bs) hin hflows (decodeOfEncode _ (.bufAppend k bs)) rfl hfull
    · refine step_of_idle (pick_singleton_of_not_ready hin ?_) hflows
      simp only [State.eventReady, State.appendReady, hfull, Bool.false_and, Bool.and_false]
  · have hfull : s.hasRoom k 9 = false := hasRoom_eq_false hcap hheader
    refine ⟨fun len src dst => ?_, fun wd hin hflows => step_of_full (x := .header k wd) hin hflows rfl rfl hfull⟩
    rw [exec_pktHeader]
    exact receive_of_full (by rwa [encodeHeader_length])

/-! ### RESET and LINK_SET (R103, R224, R700) -/

/-- Settles O12: `RESET` waits for link-read events only, and leaves the memory with no pair in it. -/
theorem resetEmptiesEveryBuffer : Obligations.ResetEmptiesEveryBuffer := by
  refine ⟨fun s rest hin hflows => ⟨[], ?_, fun _ => rfl⟩, fun _ => rfl⟩
  have hready : s.eventReady [] .reset = true := by simp only [State.eventReady, hflows, List.isEmpty_nil]
  exact step_of_head_ready hin hready

/-- Settles O13: no identifier is refused, and the canonical list has the members of the given one. -/
theorem linkSetIsReplaced : Obligations.LinkSetIsReplaced := by
  intro s ks rest hin hfits
  have hnone : ks.find? (fun k => !fitsLinkId s.cfg.linkIdW k) = none :=
    List.find?_eq_none.2 fun k hk => by simp only [hfits k hk]; decide
  refine ⟨canonLinks ks, ?_, fun k => mem_canonLinks k ks⟩
  rw [step_of_head_ready hin rfl]
  simp only [runEvent, hnone]
  rfl

/-! ### Primitive steps of a link-read event (R450) -/

/-- The beginning of a link-read event is enabled where none is in progress and its bytes have room (R221, R420). -/
theorem eventReady_rxBegin (hfree : s.flowOf k = none) (hroom : s.hasRoom k bs.length = true) :
    s.eventReady [] (.rxBegin k bs) = true := by
  simp only [State.eventReady, State.linkFree, hfree, State.appendReady, hroom]
  rfl

theorem step_of_rxBegin (hin : s.inputs = .rxBegin k bs :: rest) (hfree : s.flowOf k = none)
    (hfits : fitsLinkId s.cfg.linkIdW k = true) (hroom : s.hasRoom k bs.length = true) :
    step s = .next ({ s with inputs := rest }.rxBegin k bs) := by
  rw [step_of_head_ready hin (eventReady_rxBegin hfree hroom)]
  exact if_pos hfits

/-- Settles O55: the step appends and keeps the event's place at the end of those in progress. -/
theorem linkReadBegins : Obligations.LinkReadBegins := by
  intro s k bs rest hin hfree hfits hroom
  exact ⟨_, step_of_rxBegin hin hfree hfits ((hasRoom_iff s k _).2 hroom), bufOf_setBuf_same s k _,
    fun j => bufOf_setBuf_ne s _⟩

theorem step_of_rxAdvance (hin : s.inputs = .rxAdvance k :: rest) (hflow : s.flowOf k = some f) :
    step s = .next ({ s with inputs := rest }.rxAdvanceFlow f) := by
  rw [step_of_head_ready hin rfl]
  exact congrArg Host.Outcome.next (rxAdvance_of_flowOf (s := { s with inputs := rest }) hflow)

/-- Settles O56: an attempt ends the event or takes a packet off, and the processing of a packet ends it or, with
`RX_DRAIN`, leaves it at its next attempt. -/
theorem linkReadAdvances : Obligations.LinkReadAdvances := by
  intro s k f rest hin hflow b l ended moved
  have hstep := step_of_rxAdvance hin hflow
  obtain rfl : f.link = k := flowOf_link hflow
  refine ⟨fun hp hinc => ?_, fun hp hcomplete => ?_, fun p hp => ?_⟩
  · rw [hstep, rxAdvanceFlow_ends { s with inputs := rest } hp hinc]
    rfl
  · refine ⟨_, ?_, bufOf_setBuf_same s f.link (b.drop (9 + l)), fun j => bufOf_setBuf_ne s _⟩
    rw [hstep, rxAdvanceFlow_extracts { s with inputs := rest } hp hcomplete]
    rfl
  · intro r
    have hr : State.processPacket { s with inputs := rest } p = r := rfl
    have hframe : SameFrame { s with inputs := rest } r.2 := (processPacket_frame _ p).1
    rw [hstep, rxAdvanceFlow_processes _ hp, hr]
    clear_value r
    have hflows : r.2.flows = s.flows := hframe.flows
    have hresp : r.2.responses = s.responses := hframe.responses
    refine ⟨fun hdrain => ?_, fun honce => ?_⟩
    · rw [if_pos hdrain, State.updateFlow, hflows]
    · rw [if_neg (by simp [honce]), State.endFlow, hflows, complete_eq, State.respond]
      simp only [hresp]
      rfl

/-! ### The primitive steps make up the event (R450, log entry 8) -/

theorem run_of_step {t : State} {r : Host.Outcome State Fault Refusal} (h : step s = .next t)
    (hrun : ∃ n, core.run n t = r) : ∃ n, core.run n s = r := by
  obtain ⟨n, hn⟩ := hrun
  refine ⟨n + 1, ?_⟩
  have hcore : core.step s = .next t := h
  simp only [Host.Core.run, hcore]
  exact hn

/-- The events in progress have no influence on the processing of a packet. -/
theorem processPacket_setFlows (s : State) (fs : List RxFlow) (p : Bytes) :
    ({ s with flows := fs }).processPacket p = ((s.processPacket p).1, { (s.processPacket p).2 with flows := fs }) := by
  have halike : Alike s { s with flows := fs } := ⟨rfl, rfl, rfl, rfl, rfl, rfl, rfl⟩
  obtain ⟨hframe, hbuf⟩ := processPacket_frame s p
  rw [halike.processPacket p]
  simp only [State.withWorkOf, ← hframe.cfg, ← hframe.localAddr, ← hframe.linkSet, ← hframe.inputs, ← hframe.responses,
    ← hbuf]

/-- `s` with one link-read event in progress and no other. -/
abbrev State.inFlow (s : State) (f : RxFlow) : State := { s with flows := [f] }

theorem updateFlow_inFlow (f g : RxFlow) (hlink : g.link = f.link) : (s.inFlow f).updateFlow g = s.inFlow g := by
  rw [State.updateFlow]
  simp only [List.map_cons, List.map_nil, hlink, if_true]

theorem endFlow_inFlow (hflows : s.flows = []) (f : RxFlow) (os : List PktOutcome) :
    (s.inFlow f).endFlow f.link os = s.respond (.ok (.outcomes f.link os)) := by
  have hended : [f].filter (fun g => g.link != f.link) = s.flows := by simp [hflows]
  rw [State.endFlow, complete_eq]
  simp only [hended]

/-- With no event to serve, the node moves on its one link-read event in progress (log entry 8). -/
theorem step_inFlow (hin : s.inputs = []) (f : RxFlow) : step (s.inFlow f) = .next ((s.inFlow f).rxAdvanceFlow f) := by
  refine step_of_oldest_flow (s := s.inFlow f) ?_ rfl
  rw [show (s.inFlow f).inputs = [] from hin]
  rfl

theorem step_inFlow_ends (hin : s.inputs = []) (hflows : s.flows = []) (os : List PktOutcome)
    (hinc : (s.bufOf k).length < 9 + ((s.bufOf k).headD 0).toNat) :
    step (s.inFlow ⟨k, none, os⟩) = .next (s.respond (.ok (.outcomes k os))) := by
  rw [step_inFlow hin, rxAdvanceFlow_ends (s.inFlow ⟨k, none, os⟩) (f := ⟨k, none, os⟩) rfl (.inr hinc),
    endFlow_inFlow hflows]

theorem step_inFlow_extracts (hin : s.inputs = []) (os : List PktOutcome)
    (hcomplete : 9 + ((s.bufOf k).headD 0).toNat ≤ (s.bufOf k).length) : step (s.inFlow ⟨k, none, os⟩) =
      .next ((s.setBuf k ((s.bufOf k).drop (9 + ((s.bufOf k).headD 0).toNat))).inFlow
        ⟨k, some ((s.bufOf k).take (9 + ((s.bufOf k).headD 0).toNat)), os⟩) := by
  rw [step_inFlow hin, rxAdvanceFlow_extracts (s.inFlow ⟨k, none, os⟩) (f := ⟨k, none, os⟩) rfl hcomplete]
  exact congrArg Host.Outcome.next (updateFlow_inFlow (s := s.setBuf k _) ⟨k, none, os⟩ ⟨k, some _, os⟩ rfl)

/-- The event in progress processes its packet, and then ends or, with `RX_DRAIN`, attempts again (R450). -/
theorem step_inFlow_processes (hin : s.inputs = []) (hflows : s.flows = []) (p : Bytes) (os : List PktOutcome) :
    step (s.inFlow ⟨k, some p, os⟩) = .next (if s.cfg.rxDrain
      then (s.processPacket p).2.inFlow ⟨k, none, os ++ [(s.processPacket p).1]⟩
      else (s.processPacket p).2.respond (.ok (.outcomes k (os ++ [(s.processPacket p).1])))) := by
  have hflows' : (s.processPacket p).2.flows = [] := (processPacket_frame s p).1.flows.trans hflows
  rw [step_inFlow hin, rxAdvanceFlow_processes (s.inFlow ⟨k, some p, os⟩) (f := ⟨k, some p, os⟩) rfl, State.inFlow,
    processPacket_setFlows]
  exact congrArg Host.Outcome.next (congrArg₂ (ite (s.cfg.rxDrain = true))
    (updateFlow_inFlow ⟨k, some p, os⟩ ⟨k, none, _⟩ rfl) (endFlow_inFlow hflows' ⟨k, some p, os⟩ _))

/-- Step by step, an event in progress that attempts an extraction does what is left of the loop of a link-read event
served whole (R450). -/
theorem run_inFlow (hin : s.inputs = []) (hflows : s.flows = []) (n : Nat) (hn : (s.bufOf k).length < n)
    (os : List PktOutcome) : ∃ m, core.run m (s.inFlow ⟨k, none, os⟩) =
      .next ((s.rxLoop k n).2.respond (.ok (.outcomes k (os ++ (s.rxLoop k n).1)))) := by
  induction n generalizing s os with
  | zero => omega
  | succ n ih =>
    rcases lt_or_ge (s.bufOf k).length (9 + ((s.bufOf k).headD 0).toNat) with hinc | hcomplete
    · refine run_of_step (step_inFlow_ends hin hflows os hinc) ⟨0, ?_⟩
      rw [rxLoop_none s _ (.inr hinc), List.append_nil]
      rfl
    · have hless : ((s.bufOf k).drop (9 + ((s.bufOf k).headD 0).toNat)).length < n := by rw [List.length_drop]; omega
      refine run_of_step (step_inFlow_extracts hin os hcomplete)
        (run_of_step (step_inFlow_processes (s := s.setBuf k _) hin hflows _ os) ?_)
      rw [rxLoop_some s n hcomplete, setBuf_cfg]
      generalize (s.bufOf k).drop (9 + ((s.bufOf k).headD 0).toNat) = rest at hless ⊢
      generalize (s.bufOf k).take (9 + ((s.bufOf k).headD 0).toNat) = p
      cases hdrain : s.cfg.rxDrain with
      | false => exact ⟨0, rfl⟩
      | true =>
        have hframe := (processPacket_frame (s.setBuf k rest) p).1
        have hleft : (((s.setBuf k rest).processPacket p).2.bufOf k).length < n := by
          rwa [bufOf_processPacket_setBuf]
        have hothers := ih (hframe.inputs.trans hin) (hframe.flows.trans hflows) hleft
          (os ++ [((s.setBuf k rest).processPacket p).1])
        simpa only [if_true, List.append_assoc, List.singleton_append] using hothers

/-- Settles O38: after its append the event is at its first attempt, and from there `run_inFlow` leads to the state that
the whole event leaves. -/
theorem primitiveStepsMakeUpLinkRead : Obligations.PrimitiveStepsMakeUpLinkRead := by
  intro s k bs hfits hroom
  have hroom' : s.hasRoom k bs.length = true := (hasRoom_iff s k _).2 hroom
  rw [exec_linkRx_of_room (s := { s with inputs := [], flows := [] }) hroom']
  refine run_of_step (step_of_rxBegin (s := { s with inputs := [.rxBegin k bs], flows := [] }) rfl rfl hfits hroom') ?_
  exact run_inFlow (s := State.bufAppend { s with inputs := [], flows := [] } k bs) rfl rfl _ (Nat.lt_succ_self _) []

end Sys2Proof.Machine
end

section
/-! Every step (R102, R103, R220, R606): what a step that completes can have been and the condition under which its
event was enabled; that none ends in a fault; and what every step keeps. -/

namespace Sys2Proof.Machine

variable {s t : State} {i : Instr} {k : LinkId} {n : Nat} {w : List LinkId} {b bs : Bytes} {f : RxFlow} {r : Fault}
  {x : Transfer}

/-! ### No step ends in a fault (R606, R607) -/

theorem receive_fault (h : s.receive k bs = .fault r) : s.hasRoom k bs.length = false := by
  rcases receive_cases s k bs with ⟨_, heq⟩ | ⟨hfull, _⟩
  · rw [heq] at h; nomatch h
  · exact hfull

theorem execBufAppend_fault (h : execBufAppend k bs s = .fault r) : s.hasRoom k bs.length = false := by
  unfold execBufAppend at h
  split at h
  · nomatch h
  · next hfull => exact Bool.eq_false_iff.2 hfull

/-- The only fault of an operation is an append without room (R420). -/
theorem exec_fault (h : exec i s = .fault r) : ∃ k n, appendOf i = some (k, n) ∧ s.hasRoom k n = false := by
  cases i with
  | bufAppend k bs => exact ⟨k, _, rfl, execBufAppend_fault h⟩
  | linkRx k bs => exact ⟨k, _, rfl, receive_fault h⟩
  | pktHeader k len src dst =>
    have hfull := receive_fault (bs := encodeHeader s.cfg.addrOrder len src dst) h
    rw [encodeHeader_length] at hfull
    exact ⟨k, 9, rfl, hfull⟩
  | _ => nomatch h

theorem hasRoom_of_instrReady (h : s.instrReady w i = true) (happ : appendOf i = some (k, n)) :
    s.hasRoom k n = true := by
  simp only [State.instrReady, happ, State.appendReady, Bool.and_eq_true] at h
  obtain ⟨_, hroom, _⟩ := h
  exact hroom

theorem runTransfer_fault (h : runTransfer x s = .fault r) :
    ∃ i, decode s.cfg.addrOrder x = .ok i ∧ exec i s = .fault r := by
  unfold runTransfer at h
  split at h
  · next i hdec =>
    unfold runInstr at h
    split at h
    · exact ⟨i, hdec, h⟩
    · nomatch h
  all_goals nomatch h

/-- An event without a transfer has no fault. -/
theorem runEvent_fault {e : Event} (h : runEvent e s = .fault r) :
    ∃ x, e = .transfer x ∧ runTransfer x s = .fault r := by
  cases e with
  | transfer x => exact ⟨x, rfl, h⟩
  | rxBegin k bs => simp only [runEvent] at h; split at h <;> nomatch h
  | setLinkSet ks => simp only [runEvent] at h; split at h <;> nomatch h
  | rxAdvance | randSample | reset => nomatch h

/-- Settles O11: the only fault is that of an append without room, and the event a step serves has room for its
append. -/
theorem stepNeverFaults : Obligations.StepNeverFaults := by
  intro s r h
  cases hpick : s.pick [] s.inputs with
  | none =>
    cases hflows : s.flows with
    | nil => rw [step_of_idle hpick hflows] at h; nomatch h
    | cons f fs => rw [step_of_oldest_flow hpick hflows] at h; nomatch h
  | some served =>
    obtain ⟨e, rest⟩ := served
    rw [step_of_pick s hpick] at h
    obtain ⟨x, rfl, hrun⟩ := runEvent_fault h
    obtain ⟨i, hdec, hexec⟩ := runTransfer_fault hrun
    obtain ⟨k, n, happ, hfull⟩ := exec_fault hexec
    obtain ⟨waiting, hready⟩ := pick_ready s hpick
    rw [eventReady_of_decode (s := s) hdec] at hready
    have hroom : s.hasRoom k n = true := hasRoom_of_instrReady hready happ
    exact Bool.false_ne_true (hfull.symm.trans hroom)

/-! ### What a step that completes can have been -/

/-- Every kind of step, with what makes its event one that can be served (`StepEffect` says which link it serves). -/
inductive StepKind (s : State) : State → Prop
  | operation {i : Instr} {rest : List Event} {t : State} (hexec : exec i { s with inputs := rest } = .next t) :
      StepKind s t
  | badCommand {rest : List Event} : StepKind s (State.respond { s with inputs := rest } .badCommand)
  | began {k : LinkId} {bs : Bytes} {rest : List Event} (hfree : s.flowOf k = none)
      (hroom : s.hasRoom k bs.length = true) : StepKind s (State.rxBegin { s with inputs := rest } k bs)
  | advanced {f : RxFlow} {rest : List Event} (hf : f ∈ s.flows) :
      StepKind s (State.rxAdvanceFlow { s with inputs := rest } f)
  | linkSet {ks : List LinkId} {rest : List Event} : StepKind s (State.setLinkSet { s with inputs := rest } ks)
  | sample {r : Nat} {rest : List Event} : StepKind s { s with inputs := rest, rand := s.rand ++ [r] }
  | cleared {rest : List Event} : StepKind s (State.coreReset { s with inputs := rest })
  | idle {rest : List Event} : StepKind s { s with inputs := rest }

theorem stepKind_of_runEvent {e : Event} {rest : List Event} (hready : s.eventReady w e = true)
    (h : runEvent e { s with inputs := rest } = .next t) : StepKind s t := by
  cases e with
  | transfer x =>
    rcases runTransfer_next h with ⟨i, _, hexec⟩ | ⟨_, rfl⟩
    · exact .operation hexec
    · exact .badCommand
  | rxBegin k bs =>
    simp only [State.eventReady, State.linkFree, State.appendReady, Bool.and_eq_true,
      Option.isNone_iff_eq_none] at hready
    obtain ⟨hfree, hroom, _⟩ := hready
    simp only [runEvent] at h
    split at h
    · cases h; exact .began hfree hroom
    · nomatch h
  | rxAdvance k =>
    cases h
    cases hflow : s.flowOf k with
    | none => rw [rxAdvance_of_no_flow (s := { s with inputs := rest }) hflow]; exact .idle
    | some f =>
      rw [rxAdvance_of_flowOf (s := { s with inputs := rest }) hflow]
      exact .advanced (List.mem_of_find?_eq_some hflow)
  | setLinkSet ks =>
    simp only [runEvent] at h
    split at h
    · nomatch h
    · cases h; exact .linkSet
  | randSample r => cases h; exact .sample
  | reset => cases h; exact .cleared

/-- What a step can have been, whatever the scheduling of log entry 8 chose. -/
theorem step_kind (h : step s = .next t) : StepKind s t := by
  cases hpick : s.pick [] s.inputs with
  | none =>
    cases hflows : s.flows with
    | nil => rw [step_of_idle hpick hflows] at h; cases h; exact .idle (rest := s.inputs)
    | cons f fs =>
      rw [step_of_oldest_flow hpick hflows] at h
      cases h
      exact .advanced (rest := s.inputs) (by simp [hflows])
  | some served =>
    obtain ⟨e, rest⟩ := served
    rw [step_of_pick s hpick] at h
    obtain ⟨waiting, hready⟩ := pick_ready s hpick
    exact stepKind_of_runEvent hready h

/-! ### LOCAL_ADDR and the parameters (R102, R203) -/

theorem exec_localAddr (h : exec i s = .next t) : t.localAddr = s.localAddr := by
  obtain ⟨u, r, hu, rfl⟩ := exec_effect h
  exact (finish_localAddr u r).trans hu.frame.localAddr

/-- Settles O47: no operation writes them, nor any of the other events. -/
theorem stepKeepsAddressAndParameters : Obligations.StepKeepsAddressAndParameters := by
  intro s t h
  cases step_kind h with
  | operation hexec => exact ⟨(exec_localAddr hexec :), (exec_cfg hexec :)⟩
  | advanced =>
    obtain ⟨hcfg, haddr, _⟩ := rxAdvanceFlow_frame _ _
    exact ⟨haddr, hcfg⟩
  | badCommand | began | linkSet | sample | cleared | idle => exact ⟨rfl, rfl⟩

/-! ### The invariant of a node, one shared operation at a time -/

/-- Settles O49: right after reset there is no byte, no link, no link-read event in progress and no output. -/
theorem resetMeetsInvariant : Obligations.ResetMeetsInvariant where
  buffers := reset_buf_wf
  links := .nil
  flows := .nil
  packets := nofun
  capacity := nofun
  sends := nofun

/-- What goes out with a whole header keeps the invariant where buffers and frame stay as they are. -/
theorem NodeInvariant.of_emits (h : NodeInvariant s) (hframe : SameFrame s t) (hbuf : t.buf = s.buf)
    (hout : Emits s t) : NodeInvariant t where
  buffers := hbuf ▸ h.buffers
  links := hframe.linkSet ▸ h.links
  flows := hframe.flows ▸ h.flows
  packets := hframe.flows ▸ h.packets
  capacity c hc k := by
    rw [State.bufLen, State.bufOf, hbuf]
    exact h.capacity c (hframe.cfg ▸ hc) k
  sends k bs hmem := by
    obtain ⟨l, hl, hsends⟩ := hout
    rw [hl, List.mem_append] at hmem
    rcases hmem with hold | hnew
    · exact h.sends k bs hold
    · exact (hsends k bs hnew).2

theorem NodeInvariant.setInputs (h : NodeInvariant s) (es : List Event) : NodeInvariant { s with inputs := es } :=
  ⟨h.buffers, h.links, h.flows, h.packets, h.capacity, h.sends⟩

theorem NodeInvariant.respond (h : NodeInvariant s) (r : Response) : NodeInvariant (s.respond r) :=
  ⟨h.buffers, h.links, h.flows, h.packets, h.capacity, h.sends⟩

theorem NodeInvariant.finish (h : NodeInvariant s) (r : Except CoreError Result) : NodeInvariant (s.finish r) := by
  cases r <;> exact h.respond _

/-- A write within the capacity keeps the invariant (R420). -/
theorem NodeInvariant.setBuf (h : NodeInvariant s) (hb : ∀ c, s.cfg.bufCap = some c → b.length ≤ c) :
    NodeInvariant (s.setBuf k b) where
  buffers := memSet_wf k b h.buffers
  links := h.links
  flows := h.flows
  packets := h.packets
  capacity c hc j := by
    by_cases hj : j = k
    · subst hj
      rw [State.bufLen, bufOf_setBuf_same]
      exact hb c hc
    · rw [State.bufLen, bufOf_setBuf_ne s b hj]
      exact h.capacity c hc j
  sends := h.sends

theorem NodeInvariant.append (h : NodeInvariant s) (hroom : s.hasRoom k bs.length = true) :
    NodeInvariant (s.setBuf k (s.bufOf k ++ bs)) :=
  h.setBuf fun c hc => by rw [List.length_append]; exact (hasRoom_iff s k _).1 hroom c hc

theorem NodeInvariant.removeHead (h : NodeInvariant s) (k : LinkId) (n : Nat) :
    NodeInvariant (s.setBuf k ((s.bufOf k).drop n)) :=
  h.setBuf fun c hc => by rw [List.length_drop]; exact (Nat.sub_le _ n).trans (h.capacity c hc k)

theorem NodeInvariant.clear (h : NodeInvariant s) (k : LinkId) : NodeInvariant (s.setBuf k []) :=
  h.setBuf fun c _ => Nat.zero_le c

theorem NodeInvariant.tryExtract (h : NodeInvariant s) (k : LinkId) : NodeInvariant (s.tryExtract k).2 := by
  rcases tryExtract_cases s k with ⟨_, heq⟩ | ⟨_, heq⟩ <;> rw [heq]
  · exact h
  · exact h.removeHead k _

theorem NodeInvariant.processPacket (h : NodeInvariant s) (p : Bytes) : NodeInvariant (s.processPacket p).2 :=
  h.of_emits (processPacket_frame s p).1 (processPacket_frame s p).2 (processPacket_emits s p)

theorem NodeInvariant.rxLoop (h : NodeInvariant s) (k : LinkId) (n : Nat) : NodeInvariant (s.rxLoop k n).2 := by
  induction n generalizing s with
  | zero => exact h
  | succ n ih =>
    rcases rxLoop_succ s k n with ⟨_, heq⟩ | ⟨p, _, heq⟩
    · rw [heq]; exact h
    · have hproc := (h.tryExtract k).processPacket p
      simp only at heq
      rw [heq]
      split
      · exact ih hproc
      · exact hproc

theorem NodeInvariant.linkRead (h : NodeInvariant s) (hroom : s.hasRoom k bs.length = true) :
    NodeInvariant (s.linkRead k bs).2 :=
  (h.append hroom).rxLoop k _

theorem NodeInvariant.receive (h : NodeInvariant s) (ht : s.receive k bs = .next t) : NodeInvariant t := by
  obtain ⟨hroom, rfl⟩ := receive_next ht
  exact (h.linkRead hroom).finish _

/-- Every operation that completes keeps the invariant. -/
theorem NodeInvariant.exec (h : NodeInvariant s) (ht : exec i s = .next t) : NodeInvariant t := by
  cases i with
  | encAddr | encHdr => cases ht; exact h.respond _
  | decAddr | decHdr | createPkt | decPkt => cases ht; exact h.finish _
  | bufAppend k bs =>
    obtain ⟨hroom, rfl⟩ := execBufAppend_next ht
    exact (h.append hroom).finish _
  | tryExtract k => cases ht; exact (h.tryExtract k).respond _
  | route d =>
    cases ht
    exact (h.of_emits (route_frame s).1 (route_frame s).2 (.nothing (route_outputs s))).finish _
  | processPkt p => cases ht; exact (h.processPacket p).finish _
  | linkRx k bs => exact h.receive ht
  | clientSend d pl =>
    cases ht
    exact (h.of_emits (sendData_frame s d pl).1 (sendData_frame s d pl).2 (sendData_emits s d pl)).finish _
  | linkReset k => cases ht; exact (h.clear k).respond _
  | pktHeader k len src dst => exact h.receive ht

/-! ### The link-read events in progress (R221, R303) -/

/-- Moving an event in progress on to a well-formed packet, or to its next attempt, keeps the invariant. -/
theorem NodeInvariant.updateFlow (h : NodeInvariant s) (hf : ∀ p, f.pending = some p → PacketWellFormed p) :
    NodeInvariant (s.updateFlow f) where
  buffers := h.buffers
  links := h.links
  flows := by
    have hsame : (s.flows.map fun g => if g.link = f.link then f else g).map RxFlow.link = s.flows.map RxFlow.link := by
      rw [List.map_map]
      refine List.map_congr_left fun g _ => ?_
      by_cases hg : g.link = f.link <;> simp [hg]
    rw [updateFlow_flows, hsame]
    exact h.flows
  packets g hg := by
    rw [updateFlow_flows, List.mem_map] at hg
    obtain ⟨g', hg', rfl⟩ := hg
    split
    · exact hf
    · exact h.packets g' hg'
  capacity := h.capacity
  sends := h.sends

theorem NodeInvariant.endFlow (h : NodeInvariant s) (k : LinkId) (os : List PktOutcome) :
    NodeInvariant (s.endFlow k os) where
  buffers := h.buffers
  links := h.links
  flows := h.flows.sublist (List.filter_sublist.map _)
  packets g hg := h.packets g (List.mem_of_mem_filter hg)
  capacity := h.capacity
  sends := h.sends

/-- A link-read event begins where its link has none in progress and its bytes have room (R221, R420). -/
theorem NodeInvariant.rxBegin (h : NodeInvariant s) (hfree : s.flowOf k = none)
    (hroom : s.hasRoom k bs.length = true) : NodeInvariant (s.rxBegin k bs) where
  buffers := (h.append hroom).buffers
  links := h.links
  flows := by
    rw [rxBegin_flows, List.map_append, List.map_singleton]
    refine h.flows.append (List.nodup_singleton k) (List.disjoint_singleton.2 fun hmem => ?_)
    obtain ⟨g, hg, rfl⟩ := List.mem_map.1 hmem
    exact flowOf_of_mem hg hfree
  packets g hg := by
    rw [rxBegin_flows, List.mem_append, List.mem_singleton] at hg
    rcases hg with hg | rfl
    · exact h.packets g hg
    · nofun
  capacity := (h.append hroom).capacity
  sends := h.sends

theorem NodeInvariant.rxAdvanceFlow (h : NodeInvariant s) (f : RxFlow) : NodeInvariant (s.rxAdvanceFlow f) := by
  cases hp : f.pending with
  | none =>
    by_cases hc : 9 + ((s.bufOf f.link).headD 0).toNat ≤ (s.bufOf f.link).length
    · rw [rxAdvanceFlow_extracts s hp hc]
      refine (h.removeHead f.link _).updateFlow fun p hsome => ?_
      cases hsome
      exact take_wellFormed hc
    · rw [rxAdvanceFlow_ends s hp (by omega)]
      exact h.endFlow _ _
  | some p =>
    rw [rxAdvanceFlow_processes s hp]
    split
    · exact (h.processPacket p).updateFlow nofun
    · exact (h.processPacket p).endFlow _ _

theorem NodeInvariant.setLinkSet (h : NodeInvariant s) (ks : List LinkId) : NodeInvariant (s.setLinkSet ks) :=
  ⟨h.buffers, canonLinks_rising ks, h.flows, h.packets, h.capacity, h.sends⟩

theorem NodeInvariant.coreReset (h : NodeInvariant s) : NodeInvariant s.coreReset :=
  ⟨reset_buf_wf, h.links, h.flows, h.packets, fun c _ _ => Nat.zero_le c, h.sends⟩

/-- Settles O48: whatever the step was, each shared operation it calls keeps the invariant. -/
theorem stepKeepsInvariant : Obligations.StepKeepsInvariant := by
  intro s t hinv h
  cases step_kind h with
  | operation hexec => exact (hinv.setInputs _).exec hexec
  | badCommand => exact (hinv.setInputs _).respond _
  | began hfree hroom => exact (hinv.setInputs _).rxBegin hfree hroom
  | advanced _ => exact (hinv.setInputs _).rxAdvanceFlow _
  | linkSet => exact (hinv.setInputs _).setLinkSet _
  | sample => exact ⟨hinv.buffers, hinv.links, hinv.flows, hinv.packets, hinv.capacity, hinv.sends⟩
  | cleared => exact (hinv.setInputs _).coreReset
  | idle => exact hinv.setInputs _

end Sys2Proof.Machine
end
